-- ==== Sys2Proof/Word.lean ====
section
/-! DEFINITION. The widths the block moves (20_memory.md R53): bytes, 16-bit ring elements, 32-bit words; and the five
words of one command descriptor (30_encoding.md R80, R81). -/

namespace Sys2Proof

/-- One SPM byte (10_state.md R34). -/
abbrev Byte := BitVec 8

/-- One stored ring element: an unsigned 16-bit value (00_scope.md R8; 41_ring_arithmetic.md R100). -/
abbrev Elem := BitVec 16

/-- One register or descriptor word (10_state.md R24; 30_encoding.md R80). -/
abbrev Word := BitVec 32

/-- The five 32-bit little-endian words W0 to W4 of a descriptor (30_encoding.md R80, R81). -/
structure Descriptor where
  w0 : Word
  w1 : Word
  w2 : Word
  w3 : Word
  w4 : Word
deriving DecidableEq, Repr

end Sys2Proof
end

