-- ==== Sys2Proof/Config.lean ====
section
/-! DEFINITION. What an instantiation of the block fixes (00_scope.md R7, R11, R15): the parameter set as plain data, the
external XOF, and the free values the spec leaves open. Derived sizes and the validity check are in Machine/Derived.lean. -/

namespace Sys2Proof

/-- The parameter set of 00_scope.md R7 and the platform parameters of R11. Unbounded naturals (R16), so that an
instantiation that breaks R9 or R10 can be written down too (R12). -/
structure Params where
  /-- `N`, the lattice dimension. -/
  n : Nat
  /-- `NBAR`, the number of parallel secret or error vectors. -/
  nbar : Nat
  /-- `LOGQ`, the modulus exponent. -/
  logq : Nat
  /-- `EB` (`EXTRACTED_BITS`). -/
  eb : Nat
  /-- `BYTES_SEED_A`. -/
  seedBytes : Nat
  /-- `MEM_BYTES`, the SPM's size in bytes. -/
  memBytes : Nat
  /-- `REG_BASE`, the host bus address of the register block. -/
  regBase : Nat
  /-- `SPM_BASE`, the host bus address of SPM byte 0. -/
  spmBase : Nat
deriving DecidableEq, Repr

/-- The shape of the external XOF `Expand` (00_scope.md R15): `ex tag seed len i` is byte `i` of `Expand(tag, seed, len)`,
for `i < len`. A value of this type is total and depends on (tag, seed, len) alone, which is all R15 lets a model assume. -/
abbrev Xof := BitVec 16 → List Byte → Nat → Nat → Byte

namespace Config

/-- The XOF of the instantiation: OPEN (00_scope.md R15, 92_eei_decisions.md D14), so it has no body and every claim
holds whatever it is. Assumption log entry 3. -/
opaque expand : Xof

/-- The draws of 20_memory.md R64: draw number `k` is the value a host read of an unwritten SPM byte returns. Free:
it has no body. Assumption log entry 5. -/
opaque freeByte : Nat → Byte

/-- The instantiation `State.reset` stands in: TC1 of 95_test_vectors.md, with a register window and an SPM window that do
not meet. DESIGN CHOICE (the spec gives the parameters no value, 92_eei_decisions.md 'Open parameters'), unsafe for a claim
about `State.reset` alone. Assumption log entry 1. -/
def resetParams : Params where
  n := 8
  nbar := 4
  logq := 15
  eb := 2
  seedBytes := 16
  memBytes := 4096
  regBase := 0x10000
  spmBase := 0x20000

end Config

end Sys2Proof
end

