-- ==== Sys2Proof/Machine/Derived.lean ====
section
/-! DEFINITION. The derived sizes of 00_scope.md R13 and the validity of a configuration (R9, R10, R12). -/

namespace Sys2Proof

namespace Params

/-- `mask_q = 2^LOGQ − 1` (R13), as a 16-bit mask. -/
def maskQ (p : Params) : Elem := BitVec.ofNat 16 (2 ^ p.logq - 1)

/-- `STEP = 2^(LOGQ−EB)` (R13). -/
def stepQ (p : Params) : Nat := 2 ^ (p.logq - p.eb)

/-- `HALF = 2^(LOGQ−EB−1)` (R13). -/
def halfQ (p : Params) : Nat := 2 ^ (p.logq - p.eb - 1)

/-- `KEYBYTES = NBAR·NBAR·EB/8` (R13). -/
def keyBytes (p : Params) : Nat := p.nbar * p.nbar * p.eb / 8

/-- `SCRATCH = NBAR·NBAR/8` (R13). -/
def scratch (p : Params) : Nat := p.nbar * p.nbar / 8

/-- `CFGVALID` (10_state.md R20): every constraint of 00_scope.md R9 and R10 holds (R12). -/
def valid (p : Params) : Bool :=
  p.nbar * p.nbar * p.eb % 8 == 0
    && decide (0 < p.eb) && decide (p.eb < p.logq) && decide (p.logq ≤ 16)
    && decide (p.eb ≤ 8)
    && p.nbar * p.nbar % 8 == 0
    && p.n % 4 == 0
    && decide (p.n ≤ 65280)
    && decide (p.nbar ≤ 255) && decide (p.seedBytes ≤ 65535)
    && p.memBytes % 4 == 0 && decide (20 ≤ p.memBytes) && decide (p.memBytes ≤ 2 ^ 31)

end Params

end Sys2Proof
end

