-- ==== Sys2Proof/Machine/State.lean ====
section
/-! DEFINITION. The machine's state as plain data (10_state.md), the reasons a step can stop, and the state after a hard
reset (10_state.md R37). -/

namespace Sys2Proof.Machine

/-- The SPM as a list of (address, byte) pairs in one canonical form: addresses strictly rising. An address that is not
listed is UNWRITTEN: it holds no value (20_memory.md R64). -/
abbrev Memory := List Host.Cell

/-- One bus access of the host (20_memory.md R60, R62; 10_state.md R24): a bus address, a width in bytes and, for a write,
the data in its low bytes. -/
inductive HostAccess where
  | read (addr bytes : Nat)
  | write (addr bytes : Nat) (value : Word)
deriving DecidableEq, Repr

/-- Who moves next (10_state.md R20): the host with one access, the reset input (70_reset_and_hazards.md R270), or the
sequencer with one step (46_sequencer_control.md R200). -/
inductive Turn where
  | access (a : HostAccess)
  | hardReset
  | sequencer
deriving DecidableEq, Repr

/-- The hardware's fault codes (60_exceptions.md R231). They are STATUS.ERRCODE values of a NEXT state, not reasons to
stop: the block takes them (R234). -/
inductive FaultCode where
  | cfgInvalid
  | descMisaligned
  | descRange
  | illegalOpcode
  | reservedNonzero
  | badIndex
  | bufMisaligned
  | bufRange
  | overlap
deriving DecidableEq, Repr

/-- The model-only faults of 60_exceptions.md R245, each kept for the whole launch: the step that meets one has no next
state. -/
inductive Fault where
  /-- Raised by the sequencer (a descriptor fetch, or a command reading an input operand): the read meets an SPM byte that
  nothing has written since hard reset, or that an aborted command left unspecified (20_memory.md R64,
  70_reset_and_hazards.md R271). Safe: the chip goes on with some value. -/
  | unwrittenRead
  /-- Raised by the host bus: the host accesses the SPM while BUSY = 1 (20_memory.md R61). Safe: the chip's behaviour
  is unspecified. -/
  | hostBusyAccess
deriving DecidableEq, Repr

/-- What the model declines (60_exceptions.md R245). -/
inductive Refusal where
  /-- Raised by an arm of `exec` for an instruction that has no meaning yet. Safe. -/
  | notModelled (mnemonic : String)
  /-- Raised by every step in a configuration that breaks 00_scope.md R12, which a model refuses outright
  (92_eei_decisions.md D13), and by a RUNNING sequencer there. Safe: the chip sets STATUS.CFGERR, refuses every START and
  never executes a command (46_sequencer_control.md R201). -/
  | invalidConfig
  /-- Raised by the host bus for an access outside the interface (20_memory.md R62). Safe: the effect is the
  platform's, the OPEN parameter `HOST_BUS_ERROR`. -/
  | hostBusError
deriving DecidableEq, Repr

/-- The machine (10_state.md R20). PARAM0, PARAM1, MEMSIZE, STATUS.CFGERR and IRQ are functions of these fields
(10_state.md R26, R27, R28, R30, R33) and are computed where they are read. -/
structure State where
  /-- The instantiation's parameters: configuration, not state (10_state.md R20). No step changes it. -/
  cfg : Params
  /-- CTRL.IE_DONE (10_state.md R29). -/
  ieDone : Bool
  /-- CTRL.IE_ERR (10_state.md R29). -/
  ieErr : Bool
  /-- STATUS.BUSY: the sequencer is RUNNING (10_state.md R30; 46_sequencer_control.md R200). -/
  busy : Bool
  /-- STATUS.DONE (10_state.md R30). -/
  done : Bool
  /-- STATUS.ERR (10_state.md R30). -/
  err : Bool
  /-- STATUS.ERRCODE (10_state.md R30). -/
  errcode : Byte
  /-- CMDPTR, the program counter (10_state.md R22, R31). -/
  cmdptr : Word
  /-- CMDCOUNT (10_state.md R32). -/
  cmdcount : Word
  /-- The SPM (10_state.md R34). -/
  mem : Memory
  /-- The descriptor latched by the last fetch: hidden state (10_state.md R35). -/
  latched : Option Descriptor
  /-- The model's own: the turns of the host and the reset input still to come, oldest first. With none left, every turn
  is the sequencer's. -/
  inbox : List Turn
  /-- The model's own: the value the last host read returned, zero-extended to 32 bits. -/
  hostData : Option Word
  /-- The model's own: how many draws (20_memory.md R64) host reads have taken. -/
  draws : Nat
deriving DecidableEq, Repr

/-- The outcome of a meaning. -/
abbrev Out := Host.Outcome State Fault Refusal

/-- The state after a hard reset of an instantiation with parameters `p`: every register as the 'after hard reset' column
of 10_state.md R37 says, the sequencer IDLE, every SPM byte unwritten (70_reset_and_hazards.md R270). -/
def State.resetOf (p : Params) : State where
  cfg := p
  ieDone := false
  ieErr := false
  busy := false
  done := false
  err := false
  errcode := 0
  cmdptr := 0
  cmdcount := 0
  mem := []
  latched := none
  inbox := []
  hostData := none
  draws := 0

/-- The machine right after reset, in the instantiation `Config.resetParams` (assumption log entry 1). -/
def State.reset : State := State.resetOf Config.resetParams

end Sys2Proof.Machine
end

