-- ==== Sys2Proof/Machine/Flags.lean ====
section
/-! DEFINITION. The block has no arithmetic flags (10_state.md R23). Its only status bits are the STATUS fields; this file
holds the fault codes they carry, the words CTRL and STATUS read as, and the interrupt output. -/

namespace Sys2Proof.Machine

/-- The code column of 60_exceptions.md R231. -/
def FaultCode.code : FaultCode → Byte
  | .cfgInvalid => 0x01
  | .descMisaligned => 0x02
  | .descRange => 0x03
  | .illegalOpcode => 0x04
  | .reservedNonzero => 0x05
  | .badIndex => 0x06
  | .bufMisaligned => 0x07
  | .bufRange => 0x08
  | .overlap => 0x09

/-- STATUS.CFGERR, constant: `1 − CFGVALID` (10_state.md R30). -/
def cfgErr (s : State) : Bool := !s.cfg.valid

/-- What STATUS reads as (10_state.md R30): bit 0 BUSY, 1 DONE, 2 ERR, 3 CFGERR, 15:8 ERRCODE; reserved bits read 0. -/
def statusWord (s : State) : Word :=
  BitVec.ofNat 32
    (s.busy.toNat + 2 * s.done.toNat + 4 * s.err.toNat + 8 * (cfgErr s).toNat + 2 ^ 8 * s.errcode.toNat)

/-- What CTRL reads as (10_state.md R29): bit 8 IE_DONE, 9 IE_ERR; START, SRST and the reserved bits read 0. -/
def ctrlWord (s : State) : Word :=
  BitVec.ofNat 32 (2 ^ 8 * s.ieDone.toNat + 2 ^ 9 * s.ieErr.toNat)

/-- The interrupt output (10_state.md R33). -/
def irq (s : State) : Bool := (s.done && s.ieDone) || (s.err && s.ieErr)

end Sys2Proof.Machine
end

