-- ==== Sys2Proof/Machine/Ops.lean ====
section
/-! DEFINITION. The named operations over the SPM (00_scope.md R17; 20_memory.md R51), and how a command ends: completion
(46_sequencer_control.md R203), HALT (R204), and fault entry, the block's one way of taking an exception
(60_exceptions.md R234). -/

namespace Sys2Proof.Machine

/-! ### The SPM -/

/-- The canonical form: addresses strictly rising. An unlisted address holds no value, so no entry can equal what an
unlisted address reads as. -/
def Memory.wf : Memory → Bool
  | [] => true
  | [_] => true
  | c :: d :: m => decide (c.1 < d.1) && Memory.wf (d :: m)

/-- The byte at an address, or none when it is unwritten (20_memory.md R64). -/
def readByte : Memory → Nat → Option Byte
  | [], _ => none
  | c :: m, a => if a = c.1 then some c.2 else readByte m a

/-- Write one byte. -/
def writeByte : Memory → Nat → Byte → Memory
  | [], a, v => [(a, v)]
  | c :: m, a, v =>
    if a < c.1 then (a, v) :: c :: m
    else if a = c.1 then (a, v) :: m
    else c :: writeByte m a v

/-- Write bytes at consecutive addresses. -/
def writeBytes : Memory → Nat → List Byte → Memory
  | m, _, [] => m
  | m, a, b :: bs => writeBytes (writeByte m a b) (a + 1) bs

/-- Mark the bytes `[a, a + n)` unwritten (70_reset_and_hazards.md R271). -/
def forget (m : Memory) (a n : Nat) : Memory :=
  m.filter fun c => decide (c.1 < a) || decide (a + n ≤ c.1)

/-- Every byte of `[a, a + n)` is written. -/
def written (m : Memory) (a : Nat) : Nat → Bool
  | 0 => true
  | n + 1 => (readByte m a).isSome && written m (a + 1) n

/-- `SPM[a]` as a value. It is used only at addresses `written` has accepted; elsewhere no step uses the 0. -/
def byteAt (m : Memory) (a : Nat) : Byte := (readByte m a).getD 0

/-- `MemRead(a, n)`, little-endian (00_scope.md R17). -/
def memRead (m : Memory) (a : Nat) : Nat → Nat
  | 0 => 0
  | n + 1 => (byteAt m a).toNat + 2 ^ 8 * memRead m (a + 1) n

/-- A ring element, `MemRead(a, 2)` (20_memory.md R52). -/
def elemAt (m : Memory) (a : Nat) : Elem := BitVec.ofNat 16 (memRead m a 2)

/-- A descriptor word, `MemRead(a, 4)` (30_encoding.md R80). -/
def wordAt (m : Memory) (a : Nat) : Word := BitVec.ofNat 32 (memRead m a 4)

/-- The `n` bytes at `a`, as a byte string. -/
def bytesAt (m : Memory) (a n : Nat) : List Byte := (List.range n).map fun i => byteAt m (a + i)

/-- The bytes `MemWrite(a, n, v)` stores, lowest address first (00_scope.md R17). -/
def bytesLE (v : Nat) : Nat → List Byte
  | 0 => []
  | n + 1 => BitVec.ofNat 8 v :: bytesLE (v / 2 ^ 8) n

/-- The bytes of `n` ring elements `f 0`, …, `f (n-1)` at consecutive places of a row-major matrix. -/
def elemBytes (n : Nat) (f : Nat → Elem) : List Byte :=
  (List.range n).flatMap fun k => bytesLE (f k).toNat 2

/-! ### How a command ends -/

/-- Completion of every command but HALT (46_sequencer_control.md R203): one more command counted, CMDPTR at the next
descriptor. -/
def complete (s : State) : State :=
  { s with cmdcount := s.cmdcount + 1, cmdptr := s.cmdptr + 20 }

/-- The end of a list at HALT (46_sequencer_control.md R204). -/
def endAtHalt (s : State) : State :=
  { s with done := true, busy := false }

/-- Fault entry (60_exceptions.md R234): the code and ERR are recorded and the sequencer returns to IDLE. There is no saved
state, no mode and no vector; CMDPTR keeps the faulting descriptor's address (R232). -/
def raiseFault (c : FaultCode) (s : State) : State :=
  { s with errcode := c.code, err := true, done := false, busy := false }

/-- The host's return from a fault, or from DONE: a write of STATUS (10_state.md R30; 60_exceptions.md R235). DONE and ERR
are write-1-to-clear; clearing ERR clears ERRCODE. -/
def writeStatus (v : Word) (s : State) : State :=
  { s with
    done := s.done && !v.getLsbD 1
    err := s.err && !v.getLsbD 2
    errcode := if v.getLsbD 2 then 0 else s.errcode }

/-- An accepted start (46_sequencer_control.md R201): CMDPTR is where the host left it. -/
def acceptStart (s : State) : State :=
  { s with done := false, err := false, errcode := 0, cmdcount := 0, busy := true }

/-- `StartRequest()` (46_sequencer_control.md R201): ignored while running, refused with CFG_INVALID in an invalid
configuration. A start with ERR = 1 is allowed (60_exceptions.md R235). -/
def startRequest (s : State) : State :=
  if s.busy then s
  else if cfgErr s then { s with err := true, errcode := FaultCode.cfgInvalid.code, done := false }
  else acceptStart s

/-- The registers as either reset leaves them, hidden state discarded, the sequencer IDLE (10_state.md R37, both
columns agree; 70_reset_and_hazards.md R270 to R272). -/
def resetRegisters (s : State) : State :=
  { s with
    ieDone := false
    ieErr := false
    busy := false
    done := false
    err := false
    errcode := 0
    cmdptr := 0
    cmdcount := 0
    latched := none }

/-- Hard reset (70_reset_and_hazards.md R270): registers reset, any run aborted, every SPM byte unwritten. -/
def hardReset (s : State) : State := { resetRegisters s with mem := [] }

end Sys2Proof.Machine
end

