-- ==== Sys2Proof/Syntax.lean ====
section
/-! DEFINITION. The commands of 30_encoding.md R84, one constructor per row of spec/opcode_table.json. Operands stand in the
assembler's order, output first (R87), except IDX, which stands first; each address is the descriptor's slot as a natural
number (R83: a zero-extended byte offset into SPM, no base, no scaling). -/

namespace Sys2Proof

inductive Instr where
  /-- HALT ends the list (46_sequencer_control.md R206). -/
  | halt
  /-- NOP (46_sequencer_control.md R207). -/
  | nop
  /-- RADD c, a, b (41_ring_arithmetic.md R105). -/
  | radd (c a b : Nat)
  /-- RSUB c, a, b (41_ring_arithmetic.md R106). -/
  | rsub (c a b : Nat)
  /-- GENROW out, seed, #r (42_matrix_generator.md R122). -/
  | genrow (r out seed : Nat)
  /-- GENBLK out, seed, #kk (42_matrix_generator.md R123). -/
  | genblk (kk out seed : Nat)
  /-- MACR out, secret, seed; `m` is the M bit, true for MACR.Q (43_matrix_accumulator.md R142, R143). -/
  | macr (m : Bool) (out secret seed : Nat)
  /-- MACL out, secret, seed; `m` is the M bit, true for MACL.Q (43_matrix_accumulator.md R142, R144). -/
  | macl (m : Bool) (out secret seed : Nat)
  /-- DMULR out, b, s (44_dense_product.md R161). -/
  | dmulr (out b sm : Nat)
  /-- DMADDL out, b, s, e (44_dense_product.md R162). -/
  | dmaddl (out b sm e : Nat)
  /-- ENC out, key (45_key_codec.md R181). -/
  | enc (out key : Nat)
  /-- DEC key, mat (45_key_codec.md R182). -/
  | dec (key mat : Nat)
deriving DecidableEq, Repr

end Sys2Proof
end

