-- ==== Sys2Proof/Machine/Operands.lean ====
section
/-! DEFINITION. Operand forms: the kinds and sizes of 20_memory.md R55, the operands and aliases of R56, and the operand checks of
46_sequencer_control.md R202 from BAD_INDEX to OVERLAP. -/

namespace Sys2Proof.Machine

/-- The operand kinds of 20_memory.md R55. -/
inductive Kind where
  | matBB | matNB | matBN | row | blk | seed | key
deriving DecidableEq, Repr

/-- The size of an operand's footprint in bytes (20_memory.md R55). -/
def Kind.size (p : Params) : Kind → Nat
  | .matBB => 2 * p.nbar ^ 2
  | .matNB => 2 * p.n * p.nbar
  | .matBN => 2 * p.n * p.nbar
  | .row => 2 * p.n
  | .blk => 8 * p.n
  | .seed => p.seedBytes
  | .key => p.keyBytes

/-- The kinds rule R54's alignment is checked for: `MAT_*`, `ROW` and `BLK` (20_memory.md R56). -/
def Kind.isMatrix : Kind → Bool
  | .matBB => true
  | .matNB => true
  | .matBN => true
  | .row => true
  | .blk => true
  | .seed => false
  | .key => false

/-- One used operand slot. `aliasOk`: an exact alias with A0 is permitted (`permitted_alias` of 46_sequencer_control.md
R202). -/
structure Slot where
  kind : Kind
  addr : Nat
  aliasOk : Bool
deriving DecidableEq, Repr

/-- The used slots of a command (20_memory.md R56): A0, the output, then the inputs in slot order. `inPlace`: A0 is itself
an input (MACR and MACL, the error matrix). -/
structure Operands where
  out : Slot
  ins : List Slot
  inPlace : Bool
deriving DecidableEq, Repr

/-- An input slot with no permitted alias. -/
def input (k : Kind) (a : Nat) : Slot := ⟨k, a, false⟩

/-- An input slot that may equal A0. -/
def inputOrAlias (k : Kind) (a : Nat) : Slot := ⟨k, a, true⟩

/-- RADD and RSUB (20_memory.md R56). -/
def ringOperands (c a b : Nat) : Operands :=
  ⟨input .matBB c, [inputOrAlias .matBB a, inputOrAlias .matBB b], false⟩

/-- GENROW (20_memory.md R56). -/
def genrowOperands (out seed : Nat) : Operands := ⟨input .row out, [input .seed seed], false⟩

/-- GENBLK (20_memory.md R56). -/
def genblkOperands (out seed : Nat) : Operands := ⟨input .blk out, [input .seed seed], false⟩

/-- MACR (20_memory.md R56). -/
def macrOperands (out secret seed : Nat) : Operands :=
  ⟨input .matNB out, [input .matNB secret, input .seed seed], true⟩

/-- MACL (20_memory.md R56). -/
def maclOperands (out secret seed : Nat) : Operands :=
  ⟨input .matBN out, [input .matBN secret, input .seed seed], true⟩

/-- DMULR (20_memory.md R56). -/
def dmulrOperands (out b sm : Nat) : Operands :=
  ⟨input .matBB out, [input .matBN b, input .matNB sm], false⟩

/-- DMADDL (20_memory.md R56). -/
def dmaddlOperands (out b sm e : Nat) : Operands :=
  ⟨input .matBB out, [input .matNB b, input .matBN sm, inputOrAlias .matBB e], false⟩

/-- ENC (20_memory.md R56). -/
def encOperands (out key : Nat) : Operands := ⟨input .matBB out, [input .key key], false⟩

/-- DEC (20_memory.md R56). -/
def decOperands (key mat : Nat) : Operands := ⟨input .key key, [input .matBB mat], false⟩

/-- The operands of a command; HALT and NOP have none. -/
def operandsOf : Instr → Option Operands
  | .halt => none
  | .nop => none
  | .radd c a b => some (ringOperands c a b)
  | .rsub c a b => some (ringOperands c a b)
  | .genrow _ out seed => some (genrowOperands out seed)
  | .genblk _ out seed => some (genblkOperands out seed)
  | .macr _ out secret seed => some (macrOperands out secret seed)
  | .macl _ out secret seed => some (maclOperands out secret seed)
  | .dmulr out b sm => some (dmulrOperands out b sm)
  | .dmaddl out b sm e => some (dmaddlOperands out b sm e)
  | .enc out key => some (encOperands out key)
  | .dec key mat => some (decOperands key mat)

/-- GENROW's index check (42_matrix_generator.md R125). -/
def rowIndexOk (p : Params) (r : Nat) : Bool := decide (r < p.n)

/-- GENBLK's index check (42_matrix_generator.md R125). -/
def blockIndexOk (p : Params) (kk : Nat) : Bool := decide (kk < p.n) && kk % 4 == 0

/-- The index check of a command; only GENROW and GENBLK have one. -/
def indexOk (p : Params) : Instr → Bool
  | .genrow r _ _ => rowIndexOk p r
  | .genblk kk _ _ => blockIndexOk p kk
  | .halt => true
  | .nop => true
  | .radd _ _ _ => true
  | .rsub _ _ _ => true
  | .macr _ _ _ _ => true
  | .macl _ _ _ _ => true
  | .dmulr _ _ _ => true
  | .dmaddl _ _ _ _ => true
  | .enc _ _ => true
  | .dec _ _ => true

/-- `overlaps(a, m, b, n)` of 46_sequencer_control.md R202. -/
def overlaps (a m b n : Nat) : Bool := decide (a < b + n) && decide (b < a + m)

/-- A matrix operand's base is odd (20_memory.md R54). -/
def Slot.misaligned (x : Slot) : Bool := x.kind.isMatrix && x.addr % 2 != 0

/-- An operand runs past the end of SPM; no truncation (20_memory.md R55). -/
def Slot.pastEnd (p : Params) (x : Slot) : Bool := decide (p.memBytes < x.addr + x.kind.size p)

/-- An input overlaps the output and is no permitted exact alias (20_memory.md R56). -/
def slotClashes (p : Params) (out x : Slot) : Bool :=
  overlaps out.addr (out.kind.size p) x.addr (x.kind.size p) && !(x.aliasOk && out.addr == x.addr)

/-- The operand checks of 46_sequencer_control.md R202, in its order; none when all pass. -/
def validate (p : Params) (idxOk : Bool) (o : Operands) : Option FaultCode :=
  if !idxOk then some .badIndex
  else if (o.out :: o.ins).any Slot.misaligned then some .bufMisaligned
  else if (o.out :: o.ins).any (Slot.pastEnd p) then some .bufRange
  else if o.ins.any (slotClashes p o.out) then some .overlap
  else none

/-- The slots a command reads: its inputs, and A0 where it is the error input (20_memory.md R56, R64). -/
def Operands.reads (o : Operands) : List Slot := if o.inPlace then o.out :: o.ins else o.ins

/-- Every byte a command reads is written (20_memory.md R64). -/
def inputsWritten (p : Params) (m : Memory) (o : Operands) : Bool :=
  o.reads.all fun x => written m x.addr (x.kind.size p)

/-- One command with operands (46_sequencer_control.md R202, R203): the first failing operand check is taken as a fault; an
unwritten input is the model fault UnwrittenRead (20_memory.md R64); otherwise `bytes`, computed from the Snapshot, are
written from A0 on and the command completes. -/
def runCommand (idxOk : Bool) (o : Operands) (bytes : List Byte) (s : State) : Out :=
  match validate s.cfg idxOk o with
  | some c => .next (raiseFault c s)
  | none =>
    if inputsWritten s.cfg s.mem o then
      .next (complete { s with mem := writeBytes s.mem o.out.addr bytes })
    else .fault .unwrittenRead

end Sys2Proof.Machine
end

