-- ==== Sys2Proof/Machine/Control.lean ====
section
/-! DEFINITION. The control commands (46_sequencer_control.md R206, R207). -/

namespace Sys2Proof.Machine

/-- HALT (R206): the list ends (R204). -/
def execHalt (s : State) : Out := .next (endAtHalt s)

/-- NOP (R207): no SPM write, then completion (R203). -/
def execNop (s : State) : Out := .next (complete s)

end Sys2Proof.Machine
end

