-- ==== Sys2Proof/Machine/Ring.lean ====
section
/-! DEFINITION. The 16-bit datapath primitives every unit uses (41_ring_arithmetic.md R101 to R104). -/

namespace Sys2Proof.Machine

/-- W-bit add, wrapping (R101). -/
def add16 (x y : Elem) : Elem := x + y

/-- W-bit subtract, wrapping (R102). -/
def sub16 (x y : Elem) : Elem := x - y

/-- W-bit multiply: the low 16 bits of the product (R103). -/
def mul16 (x y : Elem) : Elem := x * y

/-- Power-of-two reduction (R104). -/
def red (p : Params) (x : Elem) : Elem := x &&& p.maskQ

/-- `acc` after `acc = add16(acc, f 0)`, …, `acc = add16(acc, f (n-1))`: the accumulation loop of 43_matrix_accumulator.md
R143, R144 and 44_dense_product.md R161, R162. -/
def accumulate (f : Nat → Elem) (acc : Elem) : Nat → Elem
  | 0 => acc
  | n + 1 => add16 (accumulate f acc n) (f n)

/-- The final treatment `fin` of 43_matrix_accumulator.md R142: masked once when M = 1, raw when M = 0. -/
def fin16 (p : Params) (m : Bool) (acc : Elem) : Elem := if m then red p acc else acc

end Sys2Proof.Machine
end

