-- ==== Sys2Proof/Machine/DenseProduct.lean ====
section
/-! DEFINITION. DMULR and DMADDL (44_dense_product.md R160 to R162). -/

namespace Sys2Proof.Machine

/-- Cell `out[i][j]` of DMULR (R161). -/
def dmulrElem (p : Params) (m : Memory) (b sm i j : Nat) : Elem :=
  red p (accumulate
    (fun k => mul16 (elemAt m (b + 2 * (i * p.n + k))) (elemAt m (sm + 2 * (k * p.nbar + j)))) 0 p.n)

/-- Cell `out[i][j]` of DMADDL (R162): initialised from `e`. -/
def dmaddlElem (p : Params) (m : Memory) (b sm e i j : Nat) : Elem :=
  red p (accumulate
    (fun k => mul16 (elemAt m (sm + 2 * (i * p.n + k))) (elemAt m (b + 2 * (k * p.nbar + j))))
    (elemAt m (e + 2 * (i * p.nbar + j))) p.n)

/-- DMULR out, b, s (R161), row-major. -/
def execDmulr (out b sm : Nat) (s : State) : Out :=
  runCommand true (dmulrOperands out b sm)
    (elemBytes (s.cfg.nbar * s.cfg.nbar) fun k =>
      dmulrElem s.cfg s.mem b sm (k / s.cfg.nbar) (k % s.cfg.nbar)) s

/-- DMADDL out, b, s, e (R162), row-major. -/
def execDmaddl (out b sm e : Nat) (s : State) : Out :=
  runCommand true (dmaddlOperands out b sm e)
    (elemBytes (s.cfg.nbar * s.cfg.nbar) fun k =>
      dmaddlElem s.cfg s.mem b sm e (k / s.cfg.nbar) (k % s.cfg.nbar)) s

end Sys2Proof.Machine
end

