-- ==== Sys2Proof/Machine/KeyCodec.lean ====
section
/-! DEFINITION. ENC and DEC (45_key_codec.md R180 to R183). -/

namespace Sys2Proof.Machine

/-- Scratch word `w` of the packed key at `a`: EB bytes, little-endian (R180). -/
def scratchWord (p : Params) (m : Memory) (a w : Nat) : Nat := memRead m (a + w * p.eb) p.eb

/-- Field `j` of a scratch word: bits `EB·j .. EB·j + EB − 1` (R180). -/
def fieldOf (p : Params) (word j : Nat) : Nat := (word >>> (p.eb * j)) % 2 ^ p.eb

/-- Element `k` of ENC's matrix (R181): field `k mod 8` of scratch word `k / 8`, in the element's high-order bits. -/
def encElem (p : Params) (m : Memory) (key k : Nat) : Elem :=
  BitVec.ofNat 16 (fieldOf p (scratchWord p m key (k / 8)) (k % 8) <<< (p.logq - p.eb))

/-- DEC's rounding of one element (R182, R183): to the nearest multiple of STEP, ties up, modulo 2^EB. `v + HALF` is
exact. -/
def roundElem (p : Params) (v : Elem) : Nat :=
  (((red p v).toNat + p.halfQ) >>> (p.logq - p.eb)) % 2 ^ p.eb

/-- The scratch word of the first `n` fields `f 0`, …, `f (n-1)` (R182). -/
def packFields (p : Params) (f : Nat → Nat) : Nat → Nat
  | 0 => 0
  | n + 1 => packFields p f n ||| (f n <<< (p.eb * n))

/-- Scratch word `w` that DEC reassembles from elements `8w` to `8w + 7` (R182). -/
def decWord (p : Params) (m : Memory) (mat w : Nat) : Nat :=
  packFields p (fun j => roundElem p (elemAt m (mat + 2 * (8 * w + j)))) 8

/-- DEC's output (R182): the EB bytes of each scratch word, in order. -/
def decBytes (p : Params) (m : Memory) (mat : Nat) : List Byte :=
  (List.range p.scratch).flatMap fun w => bytesLE (decWord p m mat w) p.eb

/-- ENC out, key (R181). -/
def execEnc (out key : Nat) (s : State) : Out :=
  runCommand true (encOperands out key)
    (elemBytes (8 * s.cfg.scratch) (encElem s.cfg s.mem key)) s

/-- DEC key, mat (R182). -/
def execDec (key mat : Nat) (s : State) : Out :=
  runCommand true (decOperands key mat) (decBytes s.cfg s.mem mat) s

end Sys2Proof.Machine
end

