-- ==== Sys2Proof/Machine/MatrixGenerator.lean ====
section
/-! DEFINITION. The matrix A(seed) (42_matrix_generator.md R120, R121) and the commands GENROW and GENBLK (R122, R123). -/

namespace Sys2Proof.Machine

/-- The domain tag of row `r` (R121): 16 bits, and it fits by 00_scope.md R10(d). -/
def rowTag (r : Nat) : BitVec 16 := BitVec.ofNat 16 (256 + r)

/-- `A(seed)[r][c]` (R120): element `c` of the little-endian bytes of `Expand(256 + r, seed, 2N)`. -/
def matrixA (ex : Xof) (p : Params) (seed : List Byte) (r c : Nat) : Elem :=
  BitVec.ofNat 16
    ((ex (rowTag r) seed (2 * p.n) (2 * c)).toNat + 256 * (ex (rowTag r) seed (2 * p.n) (2 * c + 1)).toNat)

/-- The seed operand's bytes (R122). -/
def seedAt (p : Params) (m : Memory) (a : Nat) : List Byte := bytesAt m a p.seedBytes

/-- GENROW's output with the XOF `ex` (R122): row `r`, not reduced (R124). -/
def genrowBytes (ex : Xof) (p : Params) (m : Memory) (r seed : Nat) : List Byte :=
  elemBytes p.n fun c => matrixA ex p (seedAt p m seed) r c

/-- GENBLK's output with the XOF `ex` (R123): rows `kk` to `kk + 3`, one after another. -/
def genblkBytes (ex : Xof) (p : Params) (m : Memory) (kk seed : Nat) : List Byte :=
  (List.range 4).flatMap fun t => elemBytes p.n fun c => matrixA ex p (seedAt p m seed) (kk + t) c

/-- GENROW out, seed, #r (R122). -/
def execGenrow (r out seed : Nat) (s : State) : Out :=
  runCommand (rowIndexOk s.cfg r) (genrowOperands out seed)
    (genrowBytes Config.expand s.cfg s.mem r seed) s

/-- GENBLK out, seed, #kk (R123). -/
def execGenblk (kk out seed : Nat) (s : State) : Out :=
  runCommand (blockIndexOk s.cfg kk) (genblkOperands out seed)
    (genblkBytes Config.expand s.cfg s.mem kk seed) s

end Sys2Proof.Machine
end

