-- ==== Sys2Proof/Machine/MatrixAccumulator.lean ====
section
/-! DEFINITION. MACR and MACL (43_matrix_accumulator.md R140 to R144), with the XOF as an argument of their elements. -/

namespace Sys2Proof.Machine

/-- The accumulator of MACR for `out[r][j]` (R143): the error element, then one product per column of row `r` of A. -/
def macrAcc (ex : Xof) (p : Params) (m : Memory) (out secret seed r j : Nat) : Elem :=
  accumulate
    (fun c => mul16 (matrixA ex p (seedAt p m seed) r c) (elemAt m (secret + 2 * (c * p.nbar + j))))
    (elemAt m (out + 2 * (r * p.nbar + j))) p.n

/-- The accumulator of MACL for `out[i][j]` (R144, the defining form). -/
def maclAcc (ex : Xof) (p : Params) (m : Memory) (out secret seed i j : Nat) : Elem :=
  accumulate
    (fun k => mul16 (elemAt m (secret + 2 * (i * p.n + k))) (matrixA ex p (seedAt p m seed) k j))
    (elemAt m (out + 2 * (i * p.n + j))) p.n

/-- MACR's output (R142, R143), row-major N×NBAR: element `k` is `out[k / NBAR][k mod NBAR]`. -/
def macrBytes (ex : Xof) (p : Params) (m : Memory) (q : Bool) (out secret seed : Nat) : List Byte :=
  elemBytes (p.n * p.nbar) fun k =>
    fin16 p q (macrAcc ex p m out secret seed (k / p.nbar) (k % p.nbar))

/-- MACL's output (R142, R144), row-major NBAR×N: element `k` is `out[k / N][k mod N]`. -/
def maclBytes (ex : Xof) (p : Params) (m : Memory) (q : Bool) (out secret seed : Nat) : List Byte :=
  elemBytes (p.nbar * p.n) fun k =>
    fin16 p q (maclAcc ex p m out secret seed (k / p.n) (k % p.n))

/-- MACR and MACR.Q out, secret, seed (R143). -/
def execMacr (q : Bool) (out secret seed : Nat) (s : State) : Out :=
  runCommand true (macrOperands out secret seed)
    (macrBytes Config.expand s.cfg s.mem q out secret seed) s

/-- MACL and MACL.Q out, secret, seed (R144). -/
def execMacl (q : Bool) (out secret seed : Nat) (s : State) : Out :=
  runCommand true (maclOperands out secret seed)
    (maclBytes Config.expand s.cfg s.mem q out secret seed) s

end Sys2Proof.Machine
end

