-- ==== Sys2Proof/Machine/RingArithmetic.lean ====
section
/-! DEFINITION. RADD and RSUB (41_ring_arithmetic.md R105, R106). -/

namespace Sys2Proof.Machine

/-- Element `k` of RADD's result (R105). -/
def raddElem (p : Params) (m : Memory) (a b k : Nat) : Elem :=
  red p (add16 (elemAt m (a + 2 * k)) (elemAt m (b + 2 * k)))

/-- Element `k` of RSUB's result (R106). -/
def rsubElem (p : Params) (m : Memory) (a b k : Nat) : Elem :=
  red p (sub16 (elemAt m (a + 2 * k)) (elemAt m (b + 2 * k)))

/-- RADD c, a, b (R105). -/
def execRadd (c a b : Nat) (s : State) : Out :=
  runCommand true (ringOperands c a b)
    (elemBytes (s.cfg.nbar * s.cfg.nbar) (raddElem s.cfg s.mem a b)) s

/-- RSUB c, a, b (R106). -/
def execRsub (c a b : Nat) (s : State) : Out :=
  runCommand true (ringOperands c a b)
    (elemBytes (s.cfg.nbar * s.cfg.nbar) (rsubElem s.cfg s.mem a b)) s

end Sys2Proof.Machine
end

