-- ==== Sys2Proof/Machine/Dispatch.lean ====
section
/-! DEFINITION. The meaning of every command of spec/opcode_table.json, one arm per constructor. -/

namespace Sys2Proof.Machine

def exec (i : Instr) (s : State) : Host.Outcome State Fault Refusal :=
  match i with
  | .halt => Sys2Proof.Machine.execHalt s
  | .nop => Sys2Proof.Machine.execNop s
  | .radd c a b => Sys2Proof.Machine.execRadd c a b s
  | .rsub c a b => Sys2Proof.Machine.execRsub c a b s
  | .genrow r out seed => Sys2Proof.Machine.execGenrow r out seed s
  | .genblk kk out seed => Sys2Proof.Machine.execGenblk kk out seed s
  | .macr m out secret seed => Sys2Proof.Machine.execMacr m out secret seed s
  | .macl m out secret seed => Sys2Proof.Machine.execMacl m out secret seed s
  | .dmulr out b sm => Sys2Proof.Machine.execDmulr out b sm s
  | .dmaddl out b sm e => Sys2Proof.Machine.execDmaddl out b sm e s
  | .enc out key => Sys2Proof.Machine.execEnc out key s
  | .dec key mat => Sys2Proof.Machine.execDec key mat s

end Sys2Proof.Machine
end

