-- ==== Sys2Proof/WellFormed.lean ====
section
/-! DEFINITION. When a command can be written as a descriptor: every address fits its 32-bit slot and every index its 16-bit
field (30_encoding.md R81, R82, R83; an IDX outside 0..65535 is an assembly error, R87). Alignment, range, overlap and the
index bound N are run-time checks of the sequencer (46_sequencer_control.md R202), not of the syntax. -/

namespace Sys2Proof

/-- An operand slot holds the address (30_encoding.md R81). -/
def fitsSlot (a : Nat) : Bool := decide (a < 2 ^ 32)

/-- The IDX field holds the index (30_encoding.md R82). -/
def fitsIndex (i : Nat) : Bool := decide (i < 2 ^ 16)

/-- Every field of the command fits the descriptor's. -/
def Instr.wellFormed : Instr → Bool
  | .halt => true
  | .nop => true
  | .radd c a b => fitsSlot c && fitsSlot a && fitsSlot b
  | .rsub c a b => fitsSlot c && fitsSlot a && fitsSlot b
  | .genrow r out seed => fitsIndex r && fitsSlot out && fitsSlot seed
  | .genblk kk out seed => fitsIndex kk && fitsSlot out && fitsSlot seed
  | .macr _ out secret seed => fitsSlot out && fitsSlot secret && fitsSlot seed
  | .macl _ out secret seed => fitsSlot out && fitsSlot secret && fitsSlot seed
  | .dmulr out b sm => fitsSlot out && fitsSlot b && fitsSlot sm
  | .dmaddl out b sm e => fitsSlot out && fitsSlot b && fitsSlot sm && fitsSlot e
  | .enc out key => fitsSlot out && fitsSlot key
  | .dec key mat => fitsSlot key && fitsSlot mat

end Sys2Proof
end

