-- ==== Sys2Proof/Decode.lean ====
section
/-! DEFINITION. Decoding a descriptor (30_encoding.md R80 to R86), total on any bytes and rejecting by name, and the encoder
written from the same tables. -/

namespace Sys2Proof

/-- Why bytes are no command. `truncated`: fewer than the 20 bytes every command has (R80). `illegalOpcode`: OPC is
reserved (R86). `reservedNonzero`: a field the opcode does not use is not 0 (R85). -/
inductive DecodeError where
  | truncated
  | illegalOpcode
  | reservedNonzero
deriving DecidableEq, Repr

/-- The rows of the opcode map (R84). -/
inductive Op where
  | halt | nop | radd | rsub | genrow | genblk | macr | macl | dmulr | dmaddl | enc | dec
deriving DecidableEq, Repr

namespace Op

/-- Every row of R84. -/
def all : List Op :=
  [.halt, .nop, .radd, .rsub, .genrow, .genblk, .macr, .macl, .dmulr, .dmaddl, .enc, .dec]

/-- The OPC column of R84. -/
def code : Op → Nat
  | .halt => 0x00
  | .nop => 0x01
  | .radd => 0x10
  | .rsub => 0x11
  | .genrow => 0x20
  | .genblk => 0x21
  | .macr => 0x30
  | .macl => 0x31
  | .dmulr => 0x40
  | .dmaddl => 0x41
  | .enc => 0x50
  | .dec => 0x51

/-- The 'uses M' column of R84. -/
def usesM : Op → Bool
  | .macr => true
  | .macl => true
  | _ => false

/-- The 'uses IDX' column of R84. -/
def usesIdx : Op → Bool
  | .genrow => true
  | .genblk => true
  | _ => false

/-- The 'uses A0 A1 A2 A3' column of R84: every row uses a prefix of the slots, so the column is its length. -/
def slotCount : Op → Nat
  | .halt => 0
  | .nop => 0
  | .radd => 3
  | .rsub => 3
  | .genrow => 2
  | .genblk => 2
  | .macr => 3
  | .macl => 3
  | .dmulr => 3
  | .dmaddl => 4
  | .enc => 2
  | .dec => 2

/-- The row with this OPC, or none when the value is reserved (R86). -/
def ofCode? (c : Nat) : Option Op := all.find? fun o => o.code == c

end Op

/-- OPC = W0[7:0] (R82). -/
def opcField (w0 : Word) : Nat := w0.toNat % 2 ^ 8

/-- M = W0[8] (R82). -/
def mField (w0 : Word) : Bool := w0.toNat / 2 ^ 8 % 2 == 1

/-- RSV = W0[15:9] (R82). -/
def rsvField (w0 : Word) : Nat := w0.toNat / 2 ^ 9 % 2 ^ 7

/-- IDX = W0[31:16], zero-extended, not scaled (R82, R83). -/
def idxField (w0 : Word) : Nat := w0.toNat / 2 ^ 16

/-- The field requirements of R85 (`reserved_ok`). -/
def reservedOk (o : Op) (d : Descriptor) : Bool :=
  rsvField d.w0 == 0
    && (!mField d.w0 || o.usesM)
    && (idxField d.w0 == 0 || o.usesIdx)
    && (decide (0 < o.slotCount) || d.w1 == 0)
    && (decide (1 < o.slotCount) || d.w2 == 0)
    && (decide (2 < o.slotCount) || d.w3 == 0)
    && (decide (3 < o.slotCount) || d.w4 == 0)

/-- The command of a row, with the operands assembled as R83 says and mapped to slots as R87 says. -/
def assemble (o : Op) (d : Descriptor) : Instr :=
  match o with
  | .halt => .halt
  | .nop => .nop
  | .radd => .radd d.w1.toNat d.w2.toNat d.w3.toNat
  | .rsub => .rsub d.w1.toNat d.w2.toNat d.w3.toNat
  | .genrow => .genrow (idxField d.w0) d.w1.toNat d.w2.toNat
  | .genblk => .genblk (idxField d.w0) d.w1.toNat d.w2.toNat
  | .macr => .macr (mField d.w0) d.w1.toNat d.w2.toNat d.w3.toNat
  | .macl => .macl (mField d.w0) d.w1.toNat d.w2.toNat d.w3.toNat
  | .dmulr => .dmulr d.w1.toNat d.w2.toNat d.w3.toNat
  | .dmaddl => .dmaddl d.w1.toNat d.w2.toNat d.w3.toNat d.w4.toNat
  | .enc => .enc d.w1.toNat d.w2.toNat
  | .dec => .dec d.w1.toNat d.w2.toNat

/-- The two decoding checks of 46_sequencer_control.md R202, in its order: the opcode, then the reserved fields. -/
def decode (d : Descriptor) : Except DecodeError Instr :=
  match Op.ofCode? (opcField d.w0) with
  | none => .error .illegalOpcode
  | some o => if reservedOk o d then .ok (assemble o d) else .error .reservedNonzero

/-- A little-endian word of four bytes (20_memory.md R51). -/
def wordOfBytes (b0 b1 b2 b3 : Byte) : Word :=
  BitVec.ofNat 32 (b0.toNat + 2 ^ 8 * b1.toNat + 2 ^ 16 * b2.toNat + 2 ^ 24 * b3.toNat)

/-- The bytes of a word, lowest address first (20_memory.md R51). -/
def bytesOfWord (w : Word) : List Byte :=
  [BitVec.ofNat 8 w.toNat, BitVec.ofNat 8 (w.toNat / 2 ^ 8),
   BitVec.ofNat 8 (w.toNat / 2 ^ 16), BitVec.ofNat 8 (w.toNat / 2 ^ 24)]

/-- The descriptor in the first 20 bytes of a list and the bytes after it (R80), or none when there are fewer. -/
def descriptorOfBytes : List Byte → Option (Descriptor × List Byte)
  | a0 :: a1 :: a2 :: a3 :: b0 :: b1 :: b2 :: b3 :: c0 :: c1 :: c2 :: c3 ::
      d0 :: d1 :: d2 :: d3 :: e0 :: e1 :: e2 :: e3 :: rest =>
    some
      ({ w0 := wordOfBytes a0 a1 a2 a3
         w1 := wordOfBytes b0 b1 b2 b3
         w2 := wordOfBytes c0 c1 c2 c3
         w3 := wordOfBytes d0 d1 d2 d3
         w4 := wordOfBytes e0 e1 e2 e3 }, rest)
  | _ => none

/-- Decode the command at the head of a byte list: the command and the bytes after its 20. -/
def decodeBytes (bs : List Byte) : Except DecodeError (Instr × List Byte) :=
  match descriptorOfBytes bs with
  | none => .error .truncated
  | some (d, rest) =>
    match decode d with
    | .error e => .error e
    | .ok i => .ok (i, rest)

/-- The header word of a row (R82). -/
def header (o : Op) (m : Bool) (idx : Nat) : Word :=
  BitVec.ofNat 32 (o.code + 2 ^ 8 * m.toNat + 2 ^ 16 * idx)

/-- One operand word (R81). -/
def slotWord (a : Nat) : Word := BitVec.ofNat 32 a

/-- The descriptor of a command (R80 to R84); unused words are 0 (R85). -/
def encode : Instr → Descriptor
  | .halt => ⟨header .halt false 0, 0, 0, 0, 0⟩
  | .nop => ⟨header .nop false 0, 0, 0, 0, 0⟩
  | .radd c a b => ⟨header .radd false 0, slotWord c, slotWord a, slotWord b, 0⟩
  | .rsub c a b => ⟨header .rsub false 0, slotWord c, slotWord a, slotWord b, 0⟩
  | .genrow r out seed => ⟨header .genrow false r, slotWord out, slotWord seed, 0, 0⟩
  | .genblk kk out seed => ⟨header .genblk false kk, slotWord out, slotWord seed, 0, 0⟩
  | .macr m out secret seed => ⟨header .macr m 0, slotWord out, slotWord secret, slotWord seed, 0⟩
  | .macl m out secret seed => ⟨header .macl m 0, slotWord out, slotWord secret, slotWord seed, 0⟩
  | .dmulr out b sm => ⟨header .dmulr false 0, slotWord out, slotWord b, slotWord sm, 0⟩
  | .dmaddl out b sm e => ⟨header .dmaddl false 0, slotWord out, slotWord b, slotWord sm, slotWord e⟩
  | .enc out key => ⟨header .enc false 0, slotWord out, slotWord key, 0, 0⟩
  | .dec key mat => ⟨header .dec false 0, slotWord key, slotWord mat, 0, 0⟩

/-- The 20 bytes of a descriptor, lowest address first (R80). -/
def descriptorBytes (d : Descriptor) : List Byte :=
  bytesOfWord d.w0 ++ bytesOfWord d.w1 ++ bytesOfWord d.w2 ++ bytesOfWord d.w3 ++ bytesOfWord d.w4

/-- The 20 bytes of a command (R80). -/
def encodeBytes (i : Instr) : List Byte := descriptorBytes (encode i)

/-- The 20 bytes of an instruction whose bits are `w`, bit 0 the least significant bit of W0; the bits above `nbits`
are 0. -/
def tableBytes (nbits w : Nat) : List Byte :=
  (List.range 20).map fun k => BitVec.ofNat 8 (w % 2 ^ nbits / 2 ^ (8 * k))

/-- The instruction the decoder reads from an instruction whose bits are `w`, numbered as spec/opcode_table.json numbers
them. -/
def decodeTableWord (nbits w : Nat) : Option Instr :=
  match decodeBytes (tableBytes nbits w) with
  | .ok (i, _) => some i
  | .error _ => none

end Sys2Proof
end

