-- ==== Sys2Proof/Machine/HostBus.lean ====
section
/-! DEFINITION. The host's side of the block: the register map (10_state.md R24 to R32), soft reset (70_reset_and_hazards.md R271),
and accesses to the SPM window (20_memory.md R60 to R64). -/

namespace Sys2Proof.Machine

/-! ### Fetching a descriptor -/

/-- The five words of the descriptor at SPM address `p` (46_sequencer_control.md R202), or none when one of their bytes is
unwritten (20_memory.md R64). -/
def fetchWords (m : Memory) (p : Nat) : Option Descriptor :=
  if written m p 20 then
    some ⟨wordAt m p, wordAt m (p + 4), wordAt m (p + 8), wordAt m (p + 12), wordAt m (p + 16)⟩
  else none

/-- The two address checks of the fetch (46_sequencer_control.md R202); `p + 20` is not truncated (10_state.md R22). -/
def fetchFault (s : State) : Option FaultCode :=
  if s.cmdptr.toNat % 4 ≠ 0 then some .descMisaligned
  else if s.cfg.memBytes < s.cmdptr.toNat + 20 then some .descRange
  else none

/-! ### Soft reset -/

/-- The output footprint (base, size) of a command that validation accepts; (0, 0) for a command that writes nothing: HALT,
NOP, or one whose validation fails. -/
def outputFootprint (p : Params) (d : Descriptor) : Nat × Nat :=
  match decode d with
  | .error _ => (0, 0)
  | .ok i =>
    match operandsOf i with
    | none => (0, 0)
    | some o =>
      match validate p (indexOk p i) o with
      | some _ => (0, 0)
      | none => (o.out.addr, o.out.kind.size p)

/-- The SPM after a command in progress is aborted (70_reset_and_hazards.md R271). The command in progress is the one at CMDPTR
(10_state.md R31): its output footprint is marked unwritten. If its descriptor cannot be read its footprint is not known,
and the whole SPM is marked unwritten (assumption log entry 8). -/
def abortedMemory (s : State) : Memory :=
  match fetchFault s with
  | some _ => s.mem
  | none =>
    match fetchWords s.mem s.cmdptr.toNat with
    | none => []
    | some d => forget s.mem (outputFootprint s.cfg d).1 (outputFootprint s.cfg d).2

/-- `SoftReset()` (70_reset_and_hazards.md R271). -/
def softReset (s : State) : State :=
  if s.busy then resetRegisters { s with mem := abortedMemory s } else resetRegisters s

/-! ### The register block -/

/-- PARAM0 (10_state.md R26); each field modulo its width. -/
def param0 (p : Params) : Word :=
  BitVec.ofNat 32 (p.n % 2 ^ 16 + 2 ^ 16 * (p.nbar % 2 ^ 8) + 2 ^ 24 * (p.logq % 2 ^ 5))

/-- PARAM1 (10_state.md R27); each field modulo its width, W = 16. -/
def param1 (p : Params) : Word :=
  BitVec.ofNat 32 (p.eb % 2 ^ 4 + 2 ^ 8 * 16 + 2 ^ 16 * (p.seedBytes % 2 ^ 16))

/-- MEMSIZE (10_state.md R28). R28 gives no rule for a MEM_BYTES of 2^32 or more, which only an invalid configuration has: modulo
2^32 there is the model's choice (DESIGN CHOICE, assumption log entry 19). -/
def memsize (p : Params) : Word := BitVec.ofNat 32 p.memBytes

/-- The register map of 10_state.md R25, read at a word-aligned offset; an unlisted offset reads 0 (R24). No read has a
side effect on the block. -/
def readRegister (off : Nat) (s : State) : Word :=
  if off = 0x00 then param0 s.cfg
  else if off = 0x04 then param1 s.cfg
  else if off = 0x08 then memsize s.cfg
  else if off = 0x0C then ctrlWord s
  else if off = 0x10 then statusWord s
  else if off = 0x14 then s.cmdptr
  else if off = 0x18 then s.cmdcount
  else 0

/-- A write of CTRL (10_state.md R29): SRST wins; otherwise the enables are stored and then START acts. -/
def writeCtrl (v : Word) (s : State) : State :=
  if v.getLsbD 1 then softReset s
  else
    let t := { s with ieDone := v.getLsbD 8, ieErr := v.getLsbD 9 }
    if v.getLsbD 0 then startRequest t else t

/-- A write of CMDPTR (10_state.md R31): ignored while BUSY, else stored whole, alignment unchecked. -/
def writeCmdptr (v : Word) (s : State) : State :=
  if s.busy then s else { s with cmdptr := v }

/-- The register map of 10_state.md R25, written; read-only and unlisted offsets ignore the write (R24). -/
def writeRegister (off : Nat) (v : Word) (s : State) : State :=
  if off = 0x0C then writeCtrl v s
  else if off = 0x10 then writeStatus v s
  else if off = 0x14 then writeCmdptr v s
  else s

/-! ### The SPM window -/

/-- One byte as a host read returns it: the byte, or the next draw where it is unwritten (20_memory.md R64); and how many
draws have been taken then. -/
def hostByte (m : Memory) (k a : Nat) : Byte × Nat :=
  match readByte m a with
  | some b => (b, k)
  | none => (Config.freeByte k, k + 1)

/-- A host read of `n` bytes, little-endian (20_memory.md R60), and the draws taken then. -/
def hostRead (m : Memory) (k a : Nat) : Nat → Nat × Nat
  | 0 => (0, k)
  | n + 1 =>
    let b := hostByte m k a
    let r := hostRead m b.2 (a + 1) n
    (b.1.toNat + 2 ^ 8 * r.1, r.2)

/-- What a bus address is: an offset in the register block, an SPM address, or outside the interface. An address in both
windows is outside it (assumption log entry 9). -/
inductive Target where
  | register (off : Nat)
  | spm (a : Nat)
  | outside
deriving DecidableEq, Repr

/-- Address decoding (00_scope.md R11; 10_state.md R24; 20_memory.md R60). -/
def busTarget (p : Params) (addr : Nat) : Target :=
  let inReg := decide (p.regBase ≤ addr) && decide (addr < p.regBase + 256)
  let inSpm := decide (p.spmBase ≤ addr) && decide (addr < p.spmBase + p.memBytes)
  match inReg, inSpm with
  | true, false => .register (addr - p.regBase)
  | false, true => .spm (addr - p.spmBase)
  | true, true => .outside
  | false, false => .outside

/-- An SPM access of 1, 2 or 4 bytes aligned to its size and inside the window (20_memory.md R60, R62). -/
def spmAccessOk (p : Params) (a n : Nat) : Bool :=
  (n == 1 || n == 2 || n == 4) && a % n == 0 && decide (a + n ≤ p.memBytes)

/-- A register access of the interface: 32 bits, word-aligned (10_state.md R24). -/
def registerAccessOk (off n : Nat) : Bool := n == 4 && off % 4 == 0

/-- One host access. Outside the interface it is refused (20_memory.md R62); an SPM access while BUSY = 1 is the model fault
HostBusyAccess (R61). In IDLE an SPM read returns what the last list wrote whether or not the host has read STATUS since:
the model's choice, where R67(b) and 70_reset_and_hazards.md R276 promise it only after that read (DESIGN CHOICE, assumption
log entry 20). -/
def hostAccess (x : HostAccess) (s : State) : Out :=
  match x with
  | .read addr n =>
    match busTarget s.cfg addr with
    | .register off =>
      if registerAccessOk off n then .next { s with hostData := some (readRegister off s) }
      else .refused .hostBusError
    | .spm a =>
      if spmAccessOk s.cfg a n then
        if s.busy then .fault .hostBusyAccess
        else
          let r := hostRead s.mem s.draws a n
          .next { s with hostData := some (BitVec.ofNat 32 r.1), draws := r.2 }
      else .refused .hostBusError
    | .outside => .refused .hostBusError
  | .write addr n v =>
    match busTarget s.cfg addr with
    | .register off =>
      if registerAccessOk off n then .next (writeRegister off v s) else .refused .hostBusError
    | .spm a =>
      if spmAccessOk s.cfg a n then
        if s.busy then .fault .hostBusyAccess
        else .next { s with mem := writeBytes s.mem a (bytesLE v.toNat n) }
      else .refused .hostBusError
    | .outside => .refused .hostBusError

end Sys2Proof.Machine
end

