-- ==== Sys2Proof/Machine/Sequencer.lean ====
section
/-! DEFINITION. The sequencer's cycle (46_sequencer_control.md R200 to R205) and whose turn it is (10_state.md R20). -/

namespace Sys2Proof.Machine

/-- The hardware fault a rejected descriptor raises (46_sequencer_control.md R202). A fetched descriptor has its 20 bytes,
so `truncated` does not arise from one; it is given the code of the check it would fail. -/
def rejectionCode : DecodeError → FaultCode
  | .truncated => .descRange
  | .illegalOpcode => .illegalOpcode
  | .reservedNonzero => .reservedNonzero

/-- The descriptor is latched (10_state.md R35; 46_sequencer_control.md R202), then decoded, then validated and executed. -/
def runDescriptor (d : Descriptor) (s : State) : Out :=
  match decode d with
  | .error e => .next (raiseFault (rejectionCode e) { s with latched := some d })
  | .ok i => exec i { s with latched := some d }

/-- One step of the sequencer (46_sequencer_control.md R200): nothing in IDLE; in RUNNING one whole command, never in an
invalid configuration (00_scope.md R12). -/
def sequencerStep (s : State) : Out :=
  if s.busy then
    if cfgErr s then .refused .invalidConfig
    else
      match fetchFault s with
      | some c => .next (raiseFault c s)
      | none =>
        match fetchWords s.mem s.cmdptr.toNat with
        | none => .fault .unwrittenRead
        | some d => runDescriptor d s
  else .next s

/-- One turn of one agent (10_state.md R20; 70_reset_and_hazards.md R270). -/
def takeTurn (t : Turn) (s : State) : Out :=
  match t with
  | .access x => hostAccess x s
  | .hardReset => .next (hardReset s)
  | .sequencer => sequencerStep s

/-- One turn in a configuration the model admits: an invalid one is refused outright (00_scope.md R12, 60_exceptions.md R245).
What the chip's registers do there is `hostAccess`'s (assumption log entry 11). -/
def admittedTurn (t : Turn) (s : State) : Out :=
  if cfgErr s then .refused .invalidConfig else takeTurn t s

/-- One step of the machine: the oldest turn of the inbox, or the sequencer's when there is none (assumption log entry 6). -/
def machineStep (s : State) : Out :=
  match s.inbox with
  | [] => admittedTurn .sequencer s
  | t :: rest => admittedTurn t { s with inbox := rest }

/-- Where a loaded descriptor is placed: CMDPTR, or 0 when no descriptor can be fetched there. -/
def loadAddress (s : State) : Word :=
  match fetchFault s with
  | none => s.cmdptr
  | some _ => 0

/-- The load of one descriptor from outside: its 20 bytes in SPM at CMDPTR, the sequencer RUNNING with the status an accepted
start leaves (46_sequencer_control.md R201), and the sequencer's turn next. -/
def loadDescriptor (bytes : List Byte) (s : State) : State :=
  { s with
    mem := writeBytes s.mem (loadAddress s).toNat bytes
    cmdptr := loadAddress s
    busy := true
    done := false
    err := false
    errcode := 0
    inbox := [] }

end Sys2Proof.Machine
end

