-- ==== Sys2Proof/Machine/Step.lean ====
section
/-! DEFINITION. The step function, and the state in which the next step runs one given descriptor. -/

namespace Sys2Proof.Machine

/-- One step of the machine (10_state.md R20; 46_sequencer_control.md R200). -/
def step (s : State) : Host.Outcome State Fault Refusal := machineStep s

/-- `s` with the instruction whose bits are `w` (bits above `nbits` zero) stored where the next step fetches it, and the
sequencer running. Assumption log entry 2. -/
def State.withFetchWord (s : State) (nbits w : Nat) : State := loadDescriptor (tableBytes nbits w) s

end Sys2Proof.Machine
end

