-- ==== Sys2Proof/Safety.lean ====
section
/-! DEFINITION. What claims are stated in: completion of a command, the end of a run (46_sequencer_control.md R209), and the
machine's invariant. -/

namespace Sys2Proof.Machine

/-- An operand's base is even (20_memory.md R54). -/
def Even2 (a : Nat) : Prop := a % 2 = 0

/-- A footprint ends at or below MEM_BYTES (20_memory.md R55). -/
def InRange (p : Params) (a n : Nat) : Prop := a + n ≤ p.memBytes

/-- Two footprints do not intersect (20_memory.md R56, R202's `overlaps` is false). -/
def Apart (a m b n : Nat) : Prop := b + n ≤ a ∨ a + m ≤ b

/-- Every byte of a footprint has been written (20_memory.md R64). -/
def AllWritten (m : Memory) (a n : Nat) : Prop := ∀ x, a ≤ x → x < a + n → ∃ b, readByte m x = some b

/-- Every address outside `[a, a + n)` reads as before: the same byte, or still unwritten. -/
def SameOutside (m m' : Memory) (a n : Nat) : Prop := ∀ x, x < a ∨ a + n ≤ x → readByte m' x = readByte m x

/-- The element at `a` is written and is `v`. -/
def HoldsElem (m : Memory) (a : Nat) (v : Elem) : Prop := AllWritten m a 2 ∧ elemAt m a = v

/-- `t` is `s` after one completed command that wrote exactly `[a, a + n)`: CMDCOUNT and CMDPTR advance, every byte
outside the output footprint is as before, and every other field is unchanged (46_sequencer_control.md R203; 20_memory.md
R57). -/
def Completed (s t : State) (a n : Nat) : Prop :=
  t = { s with mem := t.mem, cmdcount := s.cmdcount + 1, cmdptr := s.cmdptr + 20 } ∧ SameOutside s.mem t.mem a n

/-- Every operand check of 46_sequencer_control.md R202 passes: the index, then the alignment of the matrix operands, the
range of every operand, and the overlap of each input with the output but for a permitted exact alias. -/
def OperandsValid (p : Params) (i : Instr) (o : Operands) : Prop :=
  indexOk p i = true
    ∧ (∀ x ∈ o.out :: o.ins, x.kind.isMatrix = true → Even2 x.addr)
    ∧ (∀ x ∈ o.out :: o.ins, InRange p x.addr (x.kind.size p))
    ∧ ∀ x ∈ o.ins, Apart o.out.addr (o.out.kind.size p) x.addr (x.kind.size p)
        ∨ (x.aliasOk = true ∧ o.out.addr = x.addr)

/-- Every byte a command reads has been written (20_memory.md R64). -/
def InputsWritten (s : State) (o : Operands) : Prop :=
  ∀ x ∈ o.reads, AllWritten s.mem x.addr (x.kind.size s.cfg)

/-- The sequencer is RUNNING in a valid configuration (46_sequencer_control.md R200, 00_scope.md R12). -/
def Running (s : State) : Prop := s.busy = true ∧ s.cfg.valid = true

/-- A RUNNING sequencer fetches the descriptor `d`: CMDPTR is a multiple of 4, its 20 bytes end at or below MEM_BYTES, and
they are written and hold `d` (46_sequencer_control.md R202). -/
def Fetches (s : State) (d : Descriptor) : Prop :=
  Running s ∧ s.cmdptr.toNat % 4 = 0 ∧ s.cmdptr.toNat + 20 ≤ s.cfg.memBytes
    ∧ AllWritten s.mem s.cmdptr.toNat 20
    ∧ d.w0 = wordAt s.mem s.cmdptr.toNat ∧ d.w1 = wordAt s.mem (s.cmdptr.toNat + 4)
    ∧ d.w2 = wordAt s.mem (s.cmdptr.toNat + 8) ∧ d.w3 = wordAt s.mem (s.cmdptr.toNat + 12)
    ∧ d.w4 = wordAt s.mem (s.cmdptr.toNat + 16)

/-- The state after a hardware fault with this code: only STATUS changes (60_exceptions.md R234). -/
def faulted (code : Byte) (s : State) : State :=
  { s with errcode := code, err := true, done := false, busy := false }

/-- `t` has the registers of 10_state.md R37 after either reset; configuration, the host's side and the draws are those
of `s`. -/
def RegistersReset (s t : State) : Prop :=
  t = { s with
    ieDone := false
    ieErr := false
    busy := false
    done := false
    err := false
    errcode := 0
    cmdptr := 0
    cmdcount := 0
    latched := none
    mem := t.mem }

/-- The STATUS invariants of 10_state.md R30, ERRCODE's range (93_implementation_defined.md I17), and that a run is only ever
in progress in a valid configuration (00_scope.md R12). -/
def StatusInv (s : State) : Prop :=
  (s.busy = true → s.done = false ∧ s.err = false)
    ∧ ¬(s.done = true ∧ s.err = true)
    ∧ (s.errcode ≠ 0 ↔ s.err = true)
    ∧ s.errcode.toNat ≤ 9
    ∧ (s.busy = true → s.cfg.valid = true)

/-- The SPM is in canonical form and holds nothing at or above MEM_BYTES (10_state.md R34). -/
def MemInv (s : State) : Prop :=
  Memory.wf s.mem = true ∧ ∀ x b, readByte s.mem x = some b → x < s.cfg.memBytes

/-- The machine's invariant. -/
def MachineInv (s : State) : Prop := StatusInv s ∧ MemInv s

/-- `k` sequencer steps from `s`, none of them a model fault or a refusal, lead to `t`. -/
inductive SequencerRun : State → Nat → State → Prop
  | zero (s : State) : SequencerRun s 0 s
  | more {s u t : State} {k : Nat} : sequencerStep s = .next u → SequencerRun u k t → SequencerRun s (k + 1) t

/-- The run in progress in `s` has ended in `t` (46_sequencer_control.md R209). -/
def RunSucceeded (t : State) : Prop := t.busy = false ∧ t.done = true

/-- The run ended at a fault (46_sequencer_control.md R209). -/
def RunFaulted (t : State) : Prop := t.busy = false ∧ t.err = true

end Sys2Proof.Machine
end

