-- ==== Sys2Proof/Certificates/Slice0/Obligations.lean ====
section
/-! DEFINITION. The statements for the provers: the spec's numbered rules, stated of the model. -/

open Sys2Proof Sys2Proof.Machine

/-! ### What the statements about single commands assume: the operands alone -/

namespace Sys2Proof.Machine

/-- RADD and RSUB execute normally: aligned, in range, the output apart from each input or equal to it, the inputs written. -/
def RingReady (s : State) (c a b : Nat) : Prop :=
  Even2 c ∧ Even2 a ∧ Even2 b
    ∧ InRange s.cfg c (2 * s.cfg.nbar ^ 2) ∧ InRange s.cfg a (2 * s.cfg.nbar ^ 2) ∧ InRange s.cfg b (2 * s.cfg.nbar ^ 2)
    ∧ (Apart c (2 * s.cfg.nbar ^ 2) a (2 * s.cfg.nbar ^ 2) ∨ c = a)
    ∧ (Apart c (2 * s.cfg.nbar ^ 2) b (2 * s.cfg.nbar ^ 2) ∨ c = b)
    ∧ AllWritten s.mem a (2 * s.cfg.nbar ^ 2) ∧ AllWritten s.mem b (2 * s.cfg.nbar ^ 2)

/-- GENROW executes normally. -/
def GenrowReady (s : State) (r out seed : Nat) : Prop :=
  r < s.cfg.n ∧ Even2 out ∧ InRange s.cfg out (2 * s.cfg.n) ∧ InRange s.cfg seed s.cfg.seedBytes
    ∧ Apart out (2 * s.cfg.n) seed s.cfg.seedBytes ∧ AllWritten s.mem seed s.cfg.seedBytes

/-- GENBLK executes normally. -/
def GenblkReady (s : State) (kk out seed : Nat) : Prop :=
  kk < s.cfg.n ∧ kk % 4 = 0 ∧ Even2 out ∧ InRange s.cfg out (8 * s.cfg.n) ∧ InRange s.cfg seed s.cfg.seedBytes
    ∧ Apart out (8 * s.cfg.n) seed s.cfg.seedBytes ∧ AllWritten s.mem seed s.cfg.seedBytes

/-- MACR and MACL execute normally: the output buffer is also an input, so it must be written. -/
def MacReady (s : State) (out secret seed : Nat) : Prop :=
  Even2 out ∧ Even2 secret
    ∧ InRange s.cfg out (2 * s.cfg.n * s.cfg.nbar) ∧ InRange s.cfg secret (2 * s.cfg.n * s.cfg.nbar)
    ∧ InRange s.cfg seed s.cfg.seedBytes
    ∧ Apart out (2 * s.cfg.n * s.cfg.nbar) secret (2 * s.cfg.n * s.cfg.nbar)
    ∧ Apart out (2 * s.cfg.n * s.cfg.nbar) seed s.cfg.seedBytes
    ∧ AllWritten s.mem out (2 * s.cfg.n * s.cfg.nbar) ∧ AllWritten s.mem secret (2 * s.cfg.n * s.cfg.nbar)
    ∧ AllWritten s.mem seed s.cfg.seedBytes

/-- DMULR executes normally. -/
def DmulrReady (s : State) (out b sm : Nat) : Prop :=
  Even2 out ∧ Even2 b ∧ Even2 sm
    ∧ InRange s.cfg out (2 * s.cfg.nbar ^ 2) ∧ InRange s.cfg b (2 * s.cfg.n * s.cfg.nbar)
    ∧ InRange s.cfg sm (2 * s.cfg.n * s.cfg.nbar)
    ∧ Apart out (2 * s.cfg.nbar ^ 2) b (2 * s.cfg.n * s.cfg.nbar)
    ∧ Apart out (2 * s.cfg.nbar ^ 2) sm (2 * s.cfg.n * s.cfg.nbar)
    ∧ AllWritten s.mem b (2 * s.cfg.n * s.cfg.nbar) ∧ AllWritten s.mem sm (2 * s.cfg.n * s.cfg.nbar)

/-- DMADDL executes normally: as DMULR, and `e` is apart from the output or equal to it. -/
def DmaddlReady (s : State) (out b sm e : Nat) : Prop :=
  DmulrReady s out b sm ∧ Even2 e ∧ InRange s.cfg e (2 * s.cfg.nbar ^ 2)
    ∧ (Apart out (2 * s.cfg.nbar ^ 2) e (2 * s.cfg.nbar ^ 2) ∨ out = e) ∧ AllWritten s.mem e (2 * s.cfg.nbar ^ 2)

/-- ENC executes normally, in a valid configuration. -/
def EncReady (s : State) (out key : Nat) : Prop :=
  s.cfg.valid = true ∧ Even2 out ∧ InRange s.cfg out (2 * s.cfg.nbar ^ 2)
    ∧ InRange s.cfg key (s.cfg.nbar * s.cfg.nbar * s.cfg.eb / 8)
    ∧ Apart out (2 * s.cfg.nbar ^ 2) key (s.cfg.nbar * s.cfg.nbar * s.cfg.eb / 8)
    ∧ AllWritten s.mem key (s.cfg.nbar * s.cfg.nbar * s.cfg.eb / 8)

/-- DEC executes normally, in a valid configuration. -/
def DecReady (s : State) (key mat : Nat) : Prop :=
  s.cfg.valid = true ∧ Even2 mat ∧ InRange s.cfg mat (2 * s.cfg.nbar ^ 2)
    ∧ InRange s.cfg key (s.cfg.nbar * s.cfg.nbar * s.cfg.eb / 8)
    ∧ Apart key (s.cfg.nbar * s.cfg.nbar * s.cfg.eb / 8) mat (2 * s.cfg.nbar ^ 2)
    ∧ AllWritten s.mem mat (2 * s.cfg.nbar ^ 2)

/-- The reserved OPC values as 30_encoding.md R86 lists them. -/
def ReservedOpcode (c : Nat) : Prop :=
  (0x02 ≤ c ∧ c ≤ 0x0F) ∨ (0x12 ≤ c ∧ c ≤ 0x1F) ∨ (0x22 ≤ c ∧ c ≤ 0x2F) ∨ (0x32 ≤ c ∧ c ≤ 0x3F)
    ∨ (0x42 ≤ c ∧ c ≤ 0x4F) ∨ (0x52 ≤ c ∧ c ≤ 0xFF)

/-- `reserved_ok` of 30_encoding.md R85, written out with the opcode values of R84. -/
def FieldsOk (d : Descriptor) : Prop :=
  d.w0.toNat / 2 ^ 9 % 2 ^ 7 = 0
    ∧ (d.w0.toNat / 2 ^ 8 % 2 = 0 ∨ d.w0.toNat % 2 ^ 8 ∈ [0x30, 0x31])
    ∧ (d.w0.toNat / 2 ^ 16 = 0 ∨ d.w0.toNat % 2 ^ 8 ∈ [0x20, 0x21])
    ∧ (d.w1 = 0 ∨ d.w0.toNat % 2 ^ 8 ∈ [0x10, 0x11, 0x20, 0x21, 0x30, 0x31, 0x40, 0x41, 0x50, 0x51])
    ∧ (d.w2 = 0 ∨ d.w0.toNat % 2 ^ 8 ∈ [0x10, 0x11, 0x20, 0x21, 0x30, 0x31, 0x40, 0x41, 0x50, 0x51])
    ∧ (d.w3 = 0 ∨ d.w0.toNat % 2 ^ 8 ∈ [0x10, 0x11, 0x30, 0x31, 0x40, 0x41])
    ∧ (d.w4 = 0 ∨ d.w0.toNat % 2 ^ 8 ∈ [0x41])

/-- The commands whose results 41_ring_arithmetic.md R108 says lie in [0, 2^LOGQ). -/
def ClosesRing : Instr → Prop
  | .halt => False
  | .nop => False
  | .radd _ _ _ => True
  | .rsub _ _ _ => True
  | .genrow _ _ _ => False
  | .genblk _ _ _ => False
  | .macr m _ _ _ => m = true
  | .macl m _ _ _ => m = true
  | .dmulr _ _ _ => True
  | .dmaddl _ _ _ _ => True
  | .enc _ _ => True
  | .dec _ _ => False

/-- `out[i][j]` after the first `b` blocks of the 4-wide algorithm of 43_matrix_accumulator.md R145, from the error element
`e`, row `i` of the secret `sc` and the matrix `A`: each block's running sum starts at 0, takes four products, and is then
added into `out[i][j]`. -/
def blockAcc (A : Nat → Nat → Elem) (sc : Nat → Elem) (e : Elem) (j : Nat) : Nat → Elem
  | 0 => e
  | b + 1 =>
    blockAcc A sc e j b
      + (0 + (A (4 * b) j * sc (4 * b) + A (4 * b + 1) j * sc (4 * b + 1)
          + A (4 * b + 2) j * sc (4 * b + 2) + A (4 * b + 3) j * sc (4 * b + 3)))

end Sys2Proof.Machine

/-! ### The datapath -/

/-- 41_ring_arithmetic.md R101, R102 and the low half of R103. -/
def Obligations.AluPrimitivesWrapAtSixteenBits : Prop :=
  ∀ x y : Elem,
    (add16 x y).toNat = (x.toNat + y.toNat) % 2 ^ 16
      ∧ (sub16 x y).toNat = (x.toNat + 2 ^ 16 - y.toNat) % 2 ^ 16
      ∧ (mul16 x y).toNat = x.toNat * y.toNat % 2 ^ 16

/-- 41_ring_arithmetic.md R104: reduction is modulo 2^LOGQ, commutes with the ring operations, and hides the bits above
LOGQ. -/
def Obligations.ReductionCommutesWithTheRing : Prop :=
  ∀ (p : Params) (x y : Elem), p.logq ≤ 16 →
    (red p x).toNat = x.toNat % 2 ^ p.logq
      ∧ red p x = x &&& BitVec.ofNat 16 (2 ^ p.logq - 1)
      ∧ (red p (add16 x y)).toNat = (x.toNat + y.toNat) % 2 ^ p.logq
      ∧ red p (add16 x y) = red p (add16 (red p x) (red p y))
      ∧ ((red p (sub16 x y)).toNat : Int) = ((x.toNat : Int) - y.toNat) % 2 ^ p.logq
      ∧ (red p (mul16 x y)).toNat = x.toNat * y.toNat % 2 ^ p.logq
      ∧ red p (mul16 x y) = red p (mul16 (red p x) (red p y))
      ∧ ∀ x' y' : Elem, red p x' = red p x → red p y' = red p y →
          red p (add16 x' y') = red p (add16 x y) ∧ red p (sub16 x' y') = red p (sub16 x y)
            ∧ red p (mul16 x' y') = red p (mul16 x y)

/-! ### Encoding -/

/-- 30_encoding.md R80 to R84: decoding the descriptor of a well-formed command gives the command, every operand kept. -/
def Obligations.DecodeOfEncodeIsTheCommand : Prop :=
  ∀ i : Instr, i.wellFormed = true → decode (encode i) = .ok i ∧ decodeBytes (encodeBytes i) = .ok (i, [])

/-- 30_encoding.md R80 to R85: a descriptor that decodes is the encoding of the command it decodes to. -/
def Obligations.EveryAcceptedDescriptorIsAnEncoding : Prop :=
  ∀ (d : Descriptor) (i : Instr), decode d = .ok i → i.wellFormed = true ∧ encode i = d

/-- 30_encoding.md R86: a fetched descriptor with a reserved OPC faults ILLEGAL_OPCODE (0x04), whatever its other fields
hold, with no effect; every other OPC value is in the map. -/
def Obligations.ReservedOpcodesFault : Prop :=
  ∀ (s : State) (d : Descriptor), Fetches s d →
    (ReservedOpcode (d.w0.toNat % 2 ^ 8) →
        sequencerStep s = .next (faulted 0x04 { s with latched := some d }))
      ∧ (¬ReservedOpcode (d.w0.toNat % 2 ^ 8) → decode d ≠ .error .illegalOpcode)

/-- 30_encoding.md R85: a fetched descriptor with a listed OPC that breaks a field requirement faults RESERVED_NONZERO (0x05)
and has no effect; one that breaks none runs as the command it decodes to. -/
def Obligations.ReservedFieldsFault : Prop :=
  ∀ (s : State) (d : Descriptor), Fetches s d → ¬ReservedOpcode (d.w0.toNat % 2 ^ 8) →
    (¬FieldsOk d → sequencerStep s = .next (faulted 0x05 { s with latched := some d }))
      ∧ (FieldsOk d → ∃ i, decode d = .ok i ∧ sequencerStep s = exec i { s with latched := some d })

/-- The six examples of 30_encoding.md R89, byte for byte. -/
def Obligations.EncodingExamplesHold : Prop :=
  decodeBytes [0x00, 0, 0, 0, 0, 0, 0, 0, 0, 0, 0, 0, 0, 0, 0, 0, 0, 0, 0, 0] = .ok (.halt, [])
    ∧ encodeBytes .halt = [0x00, 0, 0, 0, 0, 0, 0, 0, 0, 0, 0, 0, 0, 0, 0, 0, 0, 0, 0, 0]
    ∧ decodeBytes [0x10, 0, 0, 0, 0x00, 0x01, 0, 0, 0x00, 0x02, 0, 0, 0x00, 0x03, 0, 0, 0, 0, 0, 0]
        = .ok (.radd 0x100 0x200 0x300, [])
    ∧ encodeBytes (.radd 0x100 0x200 0x300)
        = [0x10, 0, 0, 0, 0x00, 0x01, 0, 0, 0x00, 0x02, 0, 0, 0x00, 0x03, 0, 0, 0, 0, 0, 0]
    ∧ decodeBytes [0x20, 0, 0x05, 0, 0x00, 0x04, 0, 0, 0x80, 0, 0, 0, 0, 0, 0, 0, 0, 0, 0, 0]
        = .ok (.genrow 5 0x400 0x80, [])
    ∧ encodeBytes (.genrow 5 0x400 0x80)
        = [0x20, 0, 0x05, 0, 0x00, 0x04, 0, 0, 0x80, 0, 0, 0, 0, 0, 0, 0, 0, 0, 0, 0]
    ∧ decodeBytes [0x31, 0x01, 0, 0, 0x00, 0x10, 0, 0, 0x00, 0x20, 0, 0, 0x40, 0, 0, 0, 0, 0, 0, 0]
        = .ok (.macl true 0x1000 0x2000 0x40, [])
    ∧ encodeBytes (.macl true 0x1000 0x2000 0x40)
        = [0x31, 0x01, 0, 0, 0x00, 0x10, 0, 0, 0x00, 0x20, 0, 0, 0x40, 0, 0, 0, 0, 0, 0, 0]
    ∧ decodeBytes [0x41, 0, 0, 0, 0x60, 0, 0, 0, 0x80, 0, 0, 0, 0xA0, 0, 0, 0, 0x60, 0, 0, 0]
        = .ok (.dmaddl 0x60 0x80 0xA0 0x60, [])
    ∧ encodeBytes (.dmaddl 0x60 0x80 0xA0 0x60)
        = [0x41, 0, 0, 0, 0x60, 0, 0, 0, 0x80, 0, 0, 0, 0xA0, 0, 0, 0, 0x60, 0, 0, 0]
    ∧ decodeBytes [0x51, 0, 0, 0, 0x10, 0, 0, 0, 0x20, 0, 0, 0, 0, 0, 0, 0, 0, 0, 0, 0] = .ok (.dec 0x10 0x20, [])
    ∧ encodeBytes (.dec 0x10 0x20) = [0x51, 0, 0, 0, 0x10, 0, 0, 0, 0x20, 0, 0, 0, 0, 0, 0, 0, 0, 0, 0, 0]

/-! ### The sequencer -/

/-- 46_sequencer_control.md R200, R202: when the 20 bytes at CMDPTR decode to `i`, the sequencer's turn is `exec i`, with the
descriptor latched. Whose turn it is is the model's choice (DESIGN CHOICE, assumption log entry 6): the oldest turn of the inbox,
which leaves the inbox, or the sequencer's when there is none; a host's turn is its access, and a reset's turn is the hard reset. -/
def Obligations.StepRunsTheDecodedCommand : Prop :=
  (∀ (s : State) (i : Instr), Running s → s.cmdptr.toNat % 4 = 0 → s.cmdptr.toNat + 20 ≤ s.cfg.memBytes →
      AllWritten s.mem s.cmdptr.toNat 20 → decodeBytes (bytesAt s.mem s.cmdptr.toNat 20) = .ok (i, []) →
      (s.inbox = [] → step s = exec i { s with latched := some (encode i) })
        ∧ ∀ rest, s.inbox = .sequencer :: rest →
            step s = exec i { s with latched := some (encode i), inbox := rest })
    ∧ (∀ (s : State) (x : HostAccess) (rest : List Turn), s.cfg.valid = true → s.inbox = .access x :: rest →
        step s = hostAccess x { s with inbox := rest })
    ∧ ∀ (s : State) (rest : List Turn), s.cfg.valid = true → s.inbox = .hardReset :: rest →
        step s = .next (hardReset { s with inbox := rest })

/-- 46_sequencer_control.md R200: in IDLE the sequencer's step changes nothing; nor does a step of the machine, in a valid
configuration, with no turn scheduled (the scheduling is assumption log entry 6, the model's choice). -/
def Obligations.IdleSequencerDoesNothing : Prop :=
  ∀ s : State, s.busy = false →
    sequencerStep s = .next s ∧ (s.cfg.valid = true → s.inbox = [] → step s = .next s)

/-- 46_sequencer_control.md R202, the checks of the fetch: a misaligned CMDPTR faults DESC_MISALIGNED (0x02), an aligned
one whose descriptor runs past MEM_BYTES faults DESC_RANGE (0x03), and an unwritten descriptor byte is the model fault
UnwrittenRead (20_memory.md R64). -/
def Obligations.FetchChecksComeFirst : Prop :=
  ∀ s : State, Running s →
    (s.cmdptr.toNat % 4 ≠ 0 → sequencerStep s = .next (faulted 0x02 s))
      ∧ (s.cmdptr.toNat % 4 = 0 → s.cfg.memBytes < s.cmdptr.toNat + 20 → sequencerStep s = .next (faulted 0x03 s))
      ∧ (s.cmdptr.toNat % 4 = 0 → s.cmdptr.toNat + 20 ≤ s.cfg.memBytes → ¬AllWritten s.mem s.cmdptr.toNat 20 →
          sequencerStep s = .fault .unwrittenRead)

/-- 20_memory.md R55 and R56: address, size, whether rule R54's alignment is checked, and whether an exact alias with A0 is
permitted, for each used slot of each command, in slot order. -/
def Obligations.OperandTable : Prop :=
  ∀ (p : Params) (m : Bool) (x a0 a1 a2 a3 : Nat),
    let row := fun i : Instr => (operandsOf i).map fun o =>
      ((o.out :: o.ins).map fun z => (z.addr, z.kind.size p, z.kind.isMatrix, z.aliasOk))
    let bb := 2 * p.nbar ^ 2
    let nb := 2 * p.n * p.nbar
    let key := p.nbar * p.nbar * p.eb / 8
    row .halt = none ∧ row .nop = none
      ∧ row (.radd a0 a1 a2) = some [(a0, bb, true, false), (a1, bb, true, true), (a2, bb, true, true)]
      ∧ row (.rsub a0 a1 a2) = some [(a0, bb, true, false), (a1, bb, true, true), (a2, bb, true, true)]
      ∧ row (.genrow x a0 a1) = some [(a0, 2 * p.n, true, false), (a1, p.seedBytes, false, false)]
      ∧ row (.genblk x a0 a1) = some [(a0, 8 * p.n, true, false), (a1, p.seedBytes, false, false)]
      ∧ row (.macr m a0 a1 a2) = some [(a0, nb, true, false), (a1, nb, true, false), (a2, p.seedBytes, false, false)]
      ∧ row (.macl m a0 a1 a2) = some [(a0, nb, true, false), (a1, nb, true, false), (a2, p.seedBytes, false, false)]
      ∧ row (.dmulr a0 a1 a2) = some [(a0, bb, true, false), (a1, nb, true, false), (a2, nb, true, false)]
      ∧ row (.dmaddl a0 a1 a2 a3)
          = some [(a0, bb, true, false), (a1, nb, true, false), (a2, nb, true, false), (a3, bb, true, true)]
      ∧ row (.enc a0 a1) = some [(a0, bb, true, false), (a1, key, false, false)]
      ∧ row (.dec a0 a1) = some [(a0, key, false, false), (a1, bb, true, false)]

/-- 46_sequencer_control.md R202 and 60_exceptions.md R233, the operand checks in order: BAD_INDEX (0x06), BUF_MISALIGNED
(0x07), BUF_RANGE (0x08), OVERLAP (0x09); each is raised exactly when it fails and every earlier one passes. -/
def Obligations.OperandChecksRunInOrder : Prop :=
  ∀ (i : Instr) (o : Operands) (s : State), operandsOf i = some o →
    let odd := ∃ x ∈ o.out :: o.ins, x.kind.isMatrix = true ∧ ¬Even2 x.addr
    let past := ∃ x ∈ o.out :: o.ins, ¬InRange s.cfg x.addr (x.kind.size s.cfg)
    let clash := ∃ x ∈ o.ins, ¬Apart o.out.addr (o.out.kind.size s.cfg) x.addr (x.kind.size s.cfg)
      ∧ ¬(x.aliasOk = true ∧ o.out.addr = x.addr)
    (indexOk s.cfg i = false → exec i s = .next (faulted 0x06 s))
      ∧ (indexOk s.cfg i = true → odd → exec i s = .next (faulted 0x07 s))
      ∧ (indexOk s.cfg i = true → ¬odd → past → exec i s = .next (faulted 0x08 s))
      ∧ (indexOk s.cfg i = true → ¬odd → ¬past → clash → exec i s = .next (faulted 0x09 s))

/-- 42_matrix_generator.md R125: the index checks, that a failing command writes nothing, and the tags used: 256 to 255 + N, one
per row. -/
def Obligations.GeneratorIndexChecks : Prop :=
  (∀ (s : State) (r out seed : Nat), s.cfg.n ≤ r → exec (.genrow r out seed) s = .next (faulted 0x06 s))
    ∧ (∀ (s : State) (kk out seed : Nat), s.cfg.n ≤ kk ∨ kk % 4 ≠ 0 →
        exec (.genblk kk out seed) s = .next (faulted 0x06 s))
    ∧ (∀ p : Params, p.valid = true → ∀ r, r < p.n →
        256 ≤ (rowTag r).toNat ∧ (rowTag r).toNat ≤ 255 + p.n ∧ ∀ r', r' < p.n → rowTag r' = rowTag r → r' = r)
    ∧ (∀ p : Params, p.valid = true → ∀ kk, kk < p.n → kk % 4 = 0 → kk + 3 < p.n)

/-- 20_memory.md R64: a command whose operand checks pass and that would read an unwritten byte stops with the model fault
UnwrittenRead; MACR and MACL read A0 too. -/
def Obligations.UnwrittenInputStopsTheCommand : Prop :=
  ∀ (i : Instr) (o : Operands) (s : State), operandsOf i = some o → OperandsValid s.cfg i o →
    (∃ x ∈ o.reads, ¬AllWritten s.mem x.addr (x.kind.size s.cfg)) → exec i s = .fault .unwrittenRead

/-- 46_sequencer_control.md R203, 20_memory.md R57: once its operand checks pass and its inputs are written, every command completes and
writes no byte outside its output footprint, and in a valid configuration every byte of the footprint is written afterwards; and
no command is ever refused. -/
def Obligations.ValidatedCommandsComplete : Prop :=
  (∀ (i : Instr) (o : Operands) (s : State), operandsOf i = some o → OperandsValid s.cfg i o → InputsWritten s o →
      ∃ t, exec i s = .next t ∧ Completed s t o.out.addr (o.out.kind.size s.cfg)
        ∧ (s.cfg.valid = true → AllWritten t.mem o.out.addr (o.out.kind.size s.cfg)))
    ∧ ∀ (i : Instr) (s : State) (r : Refusal), exec i s ≠ .refused r

/-- The frame of every command (20_memory.md R57; 46_sequencer_control.md R211): none changes CTRL, the configuration, the
latched descriptor or the host's side; memory changes only inside the output footprint of the command, and not at all when the
command has no operands or takes a fault. -/
def Obligations.CommandsTouchOnlyTheirFootprint : Prop :=
  ∀ (i : Instr) (s t : State), exec i s = .next t →
    t.cfg = s.cfg ∧ t.ieDone = s.ieDone ∧ t.ieErr = s.ieErr ∧ t.latched = s.latched ∧ t.inbox = s.inbox
      ∧ t.hostData = s.hostData ∧ t.draws = s.draws
      ∧ (operandsOf i = none → t.mem = s.mem)
      ∧ ∀ o, operandsOf i = some o →
          SameOutside s.mem t.mem o.out.addr (o.out.kind.size s.cfg) ∧ (¬OperandsValid s.cfg i o → t.mem = s.mem)

/-- 60_exceptions.md R234: when a RUNNING sequencer's step ends in a fault, STATUS holds one of the codes 0x02 to 0x09 of
R231, ERR, not DONE and not BUSY; nothing else changes (the latch apart), so the faulting command has written nothing; and IRQ is 1
afterwards exactly when CTRL.IE_ERR = 1. -/
def Obligations.FaultEntryIsPrecise : Prop :=
  ∀ s t : State, StatusInv s → s.busy = true → sequencerStep s = .next t → t.err = true →
    (∃ code : Byte, 2 ≤ code.toNat ∧ code.toNat ≤ 9 ∧ t = { faulted code s with latched := t.latched })
      ∧ irq t = s.ieErr

/-- 46_sequencer_control.md R203 to R205, R208, R211: a step of a RUNNING sequencer either completes a command (CMDPTR grows by 20
without wrapping, CMDCOUNT by 1 modulo 2^32, BUSY stays) or ends the list with CMDPTR and CMDCOUNT unchanged, DONE at HALT or ERR
at a fault, not both. -/
def Obligations.CommandPointerOnlyGrowsByTwenty : Prop :=
  ∀ s t : State, StatusInv s → s.busy = true → sequencerStep s = .next t →
    (t.busy = true ∧ t.cmdptr.toNat = s.cmdptr.toNat + 20 ∧ t.cmdptr.toNat ≤ t.cfg.memBytes
        ∧ t.cmdcount = s.cmdcount + 1 ∧ t.done = false ∧ t.err = false)
      ∨ (t.busy = false ∧ t.cmdptr = s.cmdptr ∧ t.cmdcount = s.cmdcount
          ∧ ((RunSucceeded t ∧ t.err = false) ∨ (RunFaulted t ∧ t.done = false)))

/-- 46_sequencer_control.md R210: each completed command raises CMDPTR by 20; the fetch faults as soon as CMDPTR + 20 passes
MEM_BYTES; so after `k` steps that leave the sequencer RUNNING, `k` is at most floor(MEM_BYTES / 20), and one step more ends the
run, however the list rewrites itself. -/
def Obligations.EveryRunEnds : Prop :=
  (∀ s t : State, s.busy = true → sequencerStep s = .next t → t.busy = true →
      t.cmdptr.toNat = s.cmdptr.toNat + 20)
    ∧ (∀ s t : State, s.busy = true → s.cfg.memBytes < s.cmdptr.toNat + 20 → sequencerStep s = .next t →
        RunFaulted t)
    ∧ (∀ (s t : State) (k : Nat), SequencerRun s k t → t.busy = true → k ≤ s.cfg.memBytes / 20)
    ∧ ∀ s t : State, SequencerRun s (s.cfg.memBytes / 20 + 1) t → t.busy = false

/-! ### The commands -/

/-- 46_sequencer_control.md R204: HALT sets DONE, clears BUSY, keeps CMDPTR and CMDCOUNT, and IRQ follows 10_state.md R33. -/
def Obligations.HaltEndsTheList : Prop :=
  ∀ s : State, ∃ t, exec .halt s = .next t ∧ t = { s with done := true, busy := false }
    ∧ t.cmdptr = s.cmdptr ∧ t.cmdcount = s.cmdcount ∧ irq t = (s.ieDone || (s.err && s.ieErr))

/-- 46_sequencer_control.md R207: NOP writes no memory and completes. -/
def Obligations.NopOnlyAdvances : Prop :=
  ∀ s : State, exec .nop s = .next { s with cmdcount := s.cmdcount + 1, cmdptr := s.cmdptr + 20 }

/-- 41_ring_arithmetic.md R105: RADD's result, element by element, for every permitted alias. -/
def Obligations.RaddWritesTheReducedSums : Prop :=
  ∀ (s : State) (c a b : Nat), RingReady s c a b →
    ∃ t, exec (.radd c a b) s = .next t ∧ Completed s t c (2 * s.cfg.nbar ^ 2)
      ∧ ∀ k, k < s.cfg.nbar * s.cfg.nbar →
          HoldsElem t.mem (c + 2 * k) (red s.cfg (elemAt s.mem (a + 2 * k) + elemAt s.mem (b + 2 * k)))

/-- 41_ring_arithmetic.md R106: RSUB's result. -/
def Obligations.RsubWritesTheReducedDifferences : Prop :=
  ∀ (s : State) (c a b : Nat), RingReady s c a b →
    ∃ t, exec (.rsub c a b) s = .next t ∧ Completed s t c (2 * s.cfg.nbar ^ 2)
      ∧ ∀ k, k < s.cfg.nbar * s.cfg.nbar →
          HoldsElem t.mem (c + 2 * k) (red s.cfg (elemAt s.mem (a + 2 * k) - elemAt s.mem (b + 2 * k)))

/-- 42_matrix_generator.md R120 to R122: GENROW writes row `r` of A(seed), the bytes of `Expand(256 + r, seed, 2N)` as they are, not
reduced, for whatever XOF the instantiation has. -/
def Obligations.GenrowWritesTheXofBytes : Prop :=
  ∀ (s : State) (r out seed : Nat), GenrowReady s r out seed →
    ∃ t, exec (.genrow r out seed) s = .next t ∧ Completed s t out (2 * s.cfg.n)
      ∧ (∀ b, b < 2 * s.cfg.n → readByte t.mem (out + b)
          = some (Config.expand (BitVec.ofNat 16 (256 + r)) (bytesAt s.mem seed s.cfg.seedBytes) (2 * s.cfg.n) b))
      ∧ ∀ c, c < s.cfg.n →
          HoldsElem t.mem (out + 2 * c)
            (matrixA Config.expand s.cfg (bytesAt s.mem seed s.cfg.seedBytes) r c)

/-- 42_matrix_generator.md R123: GENBLK writes rows kk to kk + 3 of A(seed), one after another. -/
def Obligations.GenblkWritesFourRows : Prop :=
  ∀ (s : State) (kk out seed : Nat), GenblkReady s kk out seed →
    ∃ t, exec (.genblk kk out seed) s = .next t ∧ Completed s t out (8 * s.cfg.n)
      ∧ ∀ r, r < 4 → ∀ c, c < s.cfg.n →
          HoldsElem t.mem (out + 2 * s.cfg.n * r + 2 * c)
            (matrixA Config.expand s.cfg (bytesAt s.mem seed s.cfg.seedBytes) (kk + r) c)

/-- 42_matrix_generator.md R123: GENBLK kk leaves the SPM that GENROW kk, kk+1, kk+2, kk+3 leave, written at consecutive
2N-byte rows. -/
def Obligations.GenblkIsFourGenrows : Prop :=
  ∀ (s : State) (kk out seed : Nat), GenblkReady s kk out seed → s.cfg.n % 4 = 0 →
    ∃ t u1 u2 u3 u4, exec (.genblk kk out seed) s = .next t
      ∧ exec (.genrow kk out seed) s = .next u1
      ∧ exec (.genrow (kk + 1) (out + 2 * s.cfg.n) seed) u1 = .next u2
      ∧ exec (.genrow (kk + 2) (out + 4 * s.cfg.n) seed) u2 = .next u3
      ∧ exec (.genrow (kk + 3) (out + 6 * s.cfg.n) seed) u3 = .next u4
      ∧ u4.mem = t.mem

/-- 43_matrix_accumulator.md R143 with R142: MACR's result in matrix form, modulo 2^16, masked once when M = 1. -/
def Obligations.MacrAddsTheProduct : Prop :=
  ∀ (s : State) (q : Bool) (out secret seed : Nat), MacReady s out secret seed →
    ∃ t, exec (.macr q out secret seed) s = .next t ∧ Completed s t out (2 * s.cfg.n * s.cfg.nbar)
      ∧ ∀ r, r < s.cfg.n → ∀ j, j < s.cfg.nbar →
          let acc := elemAt s.mem (out + 2 * (r * s.cfg.nbar + j))
            + ∑ c ∈ Finset.range s.cfg.n,
                matrixA Config.expand s.cfg (bytesAt s.mem seed s.cfg.seedBytes) r c
                  * elemAt s.mem (secret + 2 * (c * s.cfg.nbar + j))
          HoldsElem t.mem (out + 2 * (r * s.cfg.nbar + j)) (if q = true then red s.cfg acc else acc)

/-- 43_matrix_accumulator.md R144 with R142: MACL's result in matrix form. -/
def Obligations.MaclAddsTheProduct : Prop :=
  ∀ (s : State) (q : Bool) (out secret seed : Nat), MacReady s out secret seed →
    ∃ t, exec (.macl q out secret seed) s = .next t ∧ Completed s t out (2 * s.cfg.n * s.cfg.nbar)
      ∧ ∀ i, i < s.cfg.nbar → ∀ j, j < s.cfg.n →
          let acc := elemAt s.mem (out + 2 * (i * s.cfg.n + j))
            + ∑ k ∈ Finset.range s.cfg.n,
                elemAt s.mem (secret + 2 * (i * s.cfg.n + k))
                  * matrixA Config.expand s.cfg (bytesAt s.mem seed s.cfg.seedBytes) k j
          HoldsElem t.mem (out + 2 * (i * s.cfg.n + j)) (if q = true then red s.cfg acc else acc)

/-- 43_matrix_accumulator.md R145: MACL writes the bytes of the 4-wide block algorithm. -/
def Obligations.MaclEqualsTheBlockAlgorithm : Prop :=
  ∀ (s : State) (q : Bool) (out secret seed : Nat), MacReady s out secret seed → s.cfg.n % 4 = 0 →
    ∃ t, exec (.macl q out secret seed) s = .next t
      ∧ ∀ i, i < s.cfg.nbar → ∀ j, j < s.cfg.n →
          let res := blockAcc (matrixA Config.expand s.cfg (bytesAt s.mem seed s.cfg.seedBytes))
            (fun k => elemAt s.mem (secret + 2 * (i * s.cfg.n + k))) (elemAt s.mem (out + 2 * (i * s.cfg.n + j))) j
            (s.cfg.n / 4)
          HoldsElem t.mem (out + 2 * (i * s.cfg.n + j)) (if q = true then red s.cfg res else res)

/-- 43_matrix_accumulator.md R142: for every element, red of the M = 0 result is the M = 1 result, for MACR and MACL. -/
def Obligations.MaskBitOnlyReduces : Prop :=
  ∀ (s : State) (out secret seed : Nat), MacReady s out secret seed →
    (∃ t u, exec (.macr false out secret seed) s = .next t ∧ exec (.macr true out secret seed) s = .next u
        ∧ ∀ k, k < s.cfg.n * s.cfg.nbar → elemAt u.mem (out + 2 * k) = red s.cfg (elemAt t.mem (out + 2 * k)))
      ∧ ∃ t u, exec (.macl false out secret seed) s = .next t ∧ exec (.macl true out secret seed) s = .next u
        ∧ ∀ k, k < s.cfg.n * s.cfg.nbar → elemAt u.mem (out + 2 * k) = red s.cfg (elemAt t.mem (out + 2 * k))

/-- 43_matrix_accumulator.md R142: every consumer in the block reduces its inputs first, so two memories whose elements at the
operands' places agree after red give RADD, RSUB, DMULR, DMADDL and DEC the same results, whatever the bits above LOGQ. -/
def Obligations.ConsumersReduceTheirInputs : Prop :=
  ∀ (p : Params) (m m' : Memory) (a b e : Nat), p.valid = true →
    (∀ x ∈ [a, b, e], ∀ k, red p (elemAt m' (x + 2 * k)) = red p (elemAt m (x + 2 * k))) →
      (∀ k, raddElem p m' a b k = raddElem p m a b k) ∧ (∀ k, rsubElem p m' a b k = rsubElem p m a b k)
        ∧ (∀ i j, dmulrElem p m' a b i j = dmulrElem p m a b i j)
        ∧ (∀ i j, dmaddlElem p m' a b e i j = dmaddlElem p m a b e i j)
        ∧ decBytes p m' a = decBytes p m a

/-- 44_dense_product.md R161: DMULR's result in matrix form, masked once. -/
def Obligations.DmulrWritesTheReducedProduct : Prop :=
  ∀ (s : State) (out b sm : Nat), DmulrReady s out b sm →
    ∃ t, exec (.dmulr out b sm) s = .next t ∧ Completed s t out (2 * s.cfg.nbar ^ 2)
      ∧ ∀ i, i < s.cfg.nbar → ∀ j, j < s.cfg.nbar →
          HoldsElem t.mem (out + 2 * (i * s.cfg.nbar + j))
            (red s.cfg (∑ k ∈ Finset.range s.cfg.n,
              elemAt s.mem (b + 2 * (i * s.cfg.n + k)) * elemAt s.mem (sm + 2 * (k * s.cfg.nbar + j))))

/-- 44_dense_product.md R162: DMADDL's result in matrix form, masked once; A0 = A3 is allowed. -/
def Obligations.DmaddlAddsTheReducedProduct : Prop :=
  ∀ (s : State) (out b sm e : Nat), DmaddlReady s out b sm e →
    ∃ t, exec (.dmaddl out b sm e) s = .next t ∧ Completed s t out (2 * s.cfg.nbar ^ 2)
      ∧ ∀ i, i < s.cfg.nbar → ∀ j, j < s.cfg.nbar →
          HoldsElem t.mem (out + 2 * (i * s.cfg.nbar + j))
            (red s.cfg (elemAt s.mem (e + 2 * (i * s.cfg.nbar + j)) + ∑ k ∈ Finset.range s.cfg.n,
              elemAt s.mem (sm + 2 * (i * s.cfg.n + k)) * elemAt s.mem (b + 2 * (k * s.cfg.nbar + j))))

/-- 45_key_codec.md R181: ENC puts field k mod 8 of scratch word k / 8 into element k's high-order bits: a multiple of STEP, below
2^LOGQ. -/
def Obligations.EncPlacesTheFields : Prop :=
  ∀ (s : State) (out key : Nat), EncReady s out key →
    ∃ t, exec (.enc out key) s = .next t ∧ Completed s t out (2 * s.cfg.nbar ^ 2)
      ∧ ∀ k, k < s.cfg.nbar * s.cfg.nbar →
          ∃ f, f = memRead s.mem (key + k / 8 * s.cfg.eb) s.cfg.eb / 2 ^ (s.cfg.eb * (k % 8)) % 2 ^ s.cfg.eb
            ∧ HoldsElem t.mem (out + 2 * k) (BitVec.ofNat 16 (f * 2 ^ (s.cfg.logq - s.cfg.eb)))
            ∧ (elemAt t.mem (out + 2 * k)).toNat = f * 2 ^ (s.cfg.logq - s.cfg.eb)
            ∧ (elemAt t.mem (out + 2 * k)).toNat < 2 ^ s.cfg.logq

/-- 45_key_codec.md R182: DEC masks, rounds and packs eight EB-bit fields per scratch word, and writes its bytes; it never
stops on the values of its input. -/
def Obligations.DecPacksTheRoundedFields : Prop :=
  ∀ (s : State) (key mat : Nat), DecReady s key mat →
    ∃ t, exec (.dec key mat) s = .next t ∧ Completed s t key (s.cfg.nbar * s.cfg.nbar * s.cfg.eb / 8)
      ∧ ∀ b, b < s.cfg.nbar * s.cfg.nbar * s.cfg.eb / 8 →
          readByte t.mem (key + b)
            = some (BitVec.ofNat 8
                ((∑ j ∈ Finset.range 8,
                    (((elemAt s.mem (mat + 2 * (8 * (b / s.cfg.eb) + j))).toNat % 2 ^ s.cfg.logq
                        + 2 ^ (s.cfg.logq - s.cfg.eb - 1)) / 2 ^ (s.cfg.logq - s.cfg.eb) % 2 ^ s.cfg.eb)
                      * 2 ^ (s.cfg.eb * j)) / 2 ^ (8 * (b % s.cfg.eb))))

/-- 45_key_codec.md R183: DEC's rounding of one element: its formula, nearest with ties up, the wrap at q, and the interval
each field value is recovered from. -/
def Obligations.DecRoundsToNearest : Prop :=
  ∀ (p : Params) (v : Elem), p.valid = true →
    roundElem p v = ((red p v).toNat + p.halfQ) / p.stepQ % 2 ^ p.eb
      ∧ ((red p v).toNat % p.stepQ < p.halfQ → roundElem p v = (red p v).toNat / p.stepQ)
      ∧ (p.halfQ ≤ (red p v).toNat % p.stepQ → roundElem p v = ((red p v).toNat / p.stepQ + 1) % 2 ^ p.eb)
      ∧ (2 ^ p.logq - p.halfQ ≤ (red p v).toNat → roundElem p v = 0)
      ∧ ∀ f, f < 2 ^ p.eb →
          (roundElem p v = f ↔
            (((red p v).toNat : Int) - f * p.stepQ + p.halfQ) % 2 ^ p.logq < (p.stepQ : Int))

/-- 45_key_codec.md R184: (a), (b) with the noise `d` in [−HALF, HALF − 1], and (c) the two values just outside, each
changing its field by one modulo 2^EB. `m` holds the packed key at `key`, `m'` the matrix at `mat`. -/
def Obligations.CodecRoundTripLaws : Prop :=
  ∀ (p : Params) (m m' : Memory) (key mat : Nat) (d : Nat → Int), p.valid = true →
    (∀ k, k < p.nbar * p.nbar → elemAt m' (mat + 2 * k) = encElem p m key k + BitVec.ofInt 16 (d k)) →
    ((∀ k, k < p.nbar * p.nbar → d k = 0) → decBytes p m' mat = bytesAt m key p.keyBytes)
      ∧ ((∀ k, k < p.nbar * p.nbar → -(p.halfQ : Int) ≤ d k ∧ d k ≤ (p.halfQ : Int) - 1) →
          decBytes p m' mat = bytesAt m key p.keyBytes)
      ∧ ∀ k, k < p.nbar * p.nbar →
          (d k = (p.halfQ : Int) → roundElem p (elemAt m' (mat + 2 * k))
              = (fieldOf p (scratchWord p m key (k / 8)) (k % 8) + 1) % 2 ^ p.eb)
            ∧ (d k = -(p.halfQ : Int) - 1 → roundElem p (elemAt m' (mat + 2 * k))
              = (fieldOf p (scratchWord p m key (k / 8)) (k % 8) + 2 ^ p.eb - 1) % 2 ^ p.eb)

/-- 45_key_codec.md R184(a), run: ENC of a key and then DEC of the matrix gives the key's bytes back, wherever DEC puts them. -/
def Obligations.EncThenDecReturnsTheKey : Prop :=
  ∀ (s : State) (out key key' : Nat), EncReady s out key →
    InRange s.cfg key' (s.cfg.nbar * s.cfg.nbar * s.cfg.eb / 8) →
    Apart key' (s.cfg.nbar * s.cfg.nbar * s.cfg.eb / 8) out (2 * s.cfg.nbar ^ 2) →
    ∃ t u, exec (.enc out key) s = .next t ∧ exec (.dec key' out) t = .next u
      ∧ ∀ b, b < s.cfg.nbar * s.cfg.nbar * s.cfg.eb / 8 → readByte u.mem (key' + b) = readByte s.mem (key + b)

/-- 41_ring_arithmetic.md R108: every element RADD, RSUB, DMULR, DMADDL, ENC, MACR.Q and MACL.Q write lies in [0, 2^LOGQ). -/
def Obligations.RingClosureOfResults : Prop :=
  ∀ (i : Instr) (o : Operands) (s t : State), s.cfg.valid = true → ClosesRing i → operandsOf i = some o →
    OperandsValid s.cfg i o → exec i s = .next t →
    ∀ k, 2 * k < o.out.kind.size s.cfg →
      AllWritten t.mem (o.out.addr + 2 * k) 2 ∧ (elemAt t.mem (o.out.addr + 2 * k)).toNat < 2 ^ s.cfg.logq

/-- 20_memory.md R57, 42_matrix_generator.md R126, 43_matrix_accumulator.md R147: what a command writes is a function of its input
bytes, its descriptor and the configuration: two states that agree on those get the same bytes in the output footprint, whatever
else differs. -/
def Obligations.ResultsDependOnTheInputsOnly : Prop :=
  ∀ (i : Instr) (o : Operands) (s s' t t' : State), operandsOf i = some o → s.cfg.valid = true → s'.cfg = s.cfg →
    OperandsValid s.cfg i o →
    (∀ x ∈ o.reads, ∀ a, x.addr ≤ a → a < x.addr + x.kind.size s.cfg → readByte s'.mem a = readByte s.mem a) →
    exec i s = .next t → exec i s' = .next t' →
    ∀ a, o.out.addr ≤ a → a < o.out.addr + o.out.kind.size s.cfg → readByte t'.mem a = readByte t.mem a

/-! ### Registers, interrupt, start -/

/-- 46_sequencer_control.md R201: StartRequest's three cases. -/
def Obligations.StartRequestCases : Prop :=
  ∀ s : State,
    (s.busy = true → startRequest s = s)
      ∧ (s.busy = false → s.cfg.valid = false →
          startRequest s = { s with err := true, errcode := 0x01, done := false })
      ∧ (s.busy = false → s.cfg.valid = true →
          startRequest s = { s with done := false, err := false, errcode := 0, cmdcount := 0, busy := true })

/-- 10_state.md R29: CTRL as a write acts and as it reads: SRST first and alone, then the enables whether BUSY or not, then
START; START, SRST and the reserved bits read 0; the enables are 0 after reset. -/
def Obligations.CtrlWriteOrder : Prop :=
  (∀ (s : State) (v : Word),
      (v.getLsbD 1 = true → writeRegister 0x0C v s = softReset s)
        ∧ (v.getLsbD 1 = false → v.getLsbD 0 = true →
            writeRegister 0x0C v s = startRequest { s with ieDone := v.getLsbD 8, ieErr := v.getLsbD 9 })
        ∧ (v.getLsbD 1 = false → v.getLsbD 0 = false →
            writeRegister 0x0C v s = { s with ieDone := v.getLsbD 8, ieErr := v.getLsbD 9 }))
    ∧ (∀ s : State, ∀ b, b < 32 →
        (readRegister 0x0C s).getLsbD b = ((b == 8 && s.ieDone) || (b == 9 && s.ieErr)))
    ∧ ∀ p : Params, readRegister 0x0C (State.resetOf p) = 0

/-- 10_state.md R30: STATUS as it reads, bit by bit, its W1C bits, and that a write changes nothing else. -/
def Obligations.StatusReadsAndClears : Prop :=
  (∀ s : State,
      (readRegister 0x10 s).getLsbD 0 = s.busy ∧ (readRegister 0x10 s).getLsbD 1 = s.done
        ∧ (readRegister 0x10 s).getLsbD 2 = s.err ∧ (readRegister 0x10 s).getLsbD 3 = !s.cfg.valid
        ∧ (readRegister 0x10 s).toNat / 2 ^ 4 % 2 ^ 4 = 0
        ∧ (readRegister 0x10 s).toNat / 2 ^ 8 % 2 ^ 8 = s.errcode.toNat
        ∧ (readRegister 0x10 s).toNat / 2 ^ 16 = 0)
    ∧ (∀ (s : State) (v : Word),
        writeRegister 0x10 v s = { s with
          done := if v.getLsbD 1 = true then false else s.done
          err := if v.getLsbD 2 = true then false else s.err
          errcode := if v.getLsbD 2 = true then 0 else s.errcode })
    ∧ ∀ p : Params, readRegister 0x10 (State.resetOf p) = if p.valid = true then 0 else 8

/-- 10_state.md R33: IRQ as a function of the CTRL and STATUS words the host reads. -/
def Obligations.InterruptFollowsTheRegisters : Prop :=
  ∀ s : State,
    irq s = (((readRegister 0x10 s).getLsbD 1 && (readRegister 0x0C s).getLsbD 8)
      || ((readRegister 0x10 s).getLsbD 2 && (readRegister 0x0C s).getLsbD 9))

/-- 10_state.md R26, R27, R28: the fields of PARAM0, PARAM1 and MEMSIZE (each parameter modulo its field's width, which in a valid
configuration is the parameter itself), and that a write of one is ignored. The modulo of MEMSIZE, which only a MEM_BYTES that no
valid configuration has shows, is the model's choice (DESIGN CHOICE, assumption log entry 19). -/
def Obligations.ConstantRegisters : Prop :=
  (∀ s : State,
      (readRegister 0x00 s).toNat % 2 ^ 16 = s.cfg.n % 2 ^ 16
        ∧ (readRegister 0x00 s).toNat / 2 ^ 16 % 2 ^ 8 = s.cfg.nbar % 2 ^ 8
        ∧ (readRegister 0x00 s).toNat / 2 ^ 24 % 2 ^ 5 = s.cfg.logq % 2 ^ 5
        ∧ (readRegister 0x00 s).toNat / 2 ^ 29 = 0
        ∧ (readRegister 0x04 s).toNat % 2 ^ 4 = s.cfg.eb % 2 ^ 4
        ∧ (readRegister 0x04 s).toNat / 2 ^ 4 % 2 ^ 4 = 0
        ∧ (readRegister 0x04 s).toNat / 2 ^ 8 % 2 ^ 5 = 16
        ∧ (readRegister 0x04 s).toNat / 2 ^ 13 % 2 ^ 3 = 0
        ∧ (readRegister 0x04 s).toNat / 2 ^ 16 = s.cfg.seedBytes % 2 ^ 16
        ∧ (readRegister 0x08 s).toNat = s.cfg.memBytes % 2 ^ 32)
    ∧ (∀ s : State, s.cfg.valid = true →
        s.cfg.n % 2 ^ 16 = s.cfg.n ∧ s.cfg.nbar % 2 ^ 8 = s.cfg.nbar ∧ s.cfg.logq % 2 ^ 5 = s.cfg.logq
          ∧ s.cfg.eb % 2 ^ 4 = s.cfg.eb ∧ s.cfg.seedBytes % 2 ^ 16 = s.cfg.seedBytes
          ∧ s.cfg.memBytes % 2 ^ 32 = s.cfg.memBytes)
    ∧ ∀ (s : State) (v : Word) (off : Nat), off ∈ [0x00, 0x04, 0x08] → writeRegister off v s = s

/-- 10_state.md R24, R31, R32: CMDPTR and CMDCOUNT as they read and write; an unlisted offset reads 0 and ignores writes; and an aligned
32-bit access of any register offset through the bus completes with the effect of that read or write, in IDLE and RUNNING alike.
00_scope.md R11, 20_memory.md R60: REG_BASE plus an offset below 256 is that register offset, and SPM_BASE plus an address below
MEM_BYTES is that SPM address, where the two windows do not meet (assumption log entry 9, the model's choice, says what holds
where they do). That a read leaves its value in `hostData` is the model's form (assumption log entry 12). -/
def Obligations.PointerCountAndReservedOffsets : Prop :=
  (∀ (s : State) (v : Word),
      readRegister 0x14 s = s.cmdptr ∧ readRegister 0x18 s = s.cmdcount
        ∧ (s.busy = false → writeRegister 0x14 v s = { s with cmdptr := v })
        ∧ (s.busy = true → writeRegister 0x14 v s = s)
        ∧ writeRegister 0x18 v s = s
        ∧ ∀ off, 0x1C ≤ off → readRegister off s = 0 ∧ writeRegister off v s = s)
    ∧ (∀ (s : State) (addr off : Nat) (v : Word), busTarget s.cfg addr = .register off → off % 4 = 0 →
        hostAccess (.read addr 4) s = .next { s with hostData := some (readRegister off s) }
          ∧ hostAccess (.write addr 4 v) s = .next (writeRegister off v s))
    ∧ (∀ (p : Params) (off : Nat), off < 256 →
        ¬(p.spmBase ≤ p.regBase + off ∧ p.regBase + off < p.spmBase + p.memBytes) →
        busTarget p (p.regBase + off) = .register off)
    ∧ ∀ (p : Params) (a : Nat), a < p.memBytes →
        ¬(p.regBase ≤ p.spmBase + a ∧ p.spmBase + a < p.regBase + 256) → busTarget p (p.spmBase + a) = .spm a

/-- 70_reset_and_hazards.md R277: while BUSY = 1 a START (without SRST) changes only the enables its own bits carry, and a CMDPTR
write changes nothing; neither reports an error. -/
def Obligations.BusyIgnoresStartAndPointerWrites : Prop :=
  ∀ (s : State) (v : Word), s.busy = true →
    (v.getLsbD 0 = true → v.getLsbD 1 = false →
        writeRegister 0x0C v s = { s with ieDone := v.getLsbD 8, ieErr := v.getLsbD 9 })
      ∧ writeRegister 0x14 v s = s

/-- 46_sequencer_control.md R201, 00_scope.md R12: in an IDLE block with an invalid configuration a START is refused: STATUS then
reads ERR, CFGERR and code 1, and the sequencer stays IDLE. The model refuses such a configuration outright (60_exceptions.md
R245): every step, whoever's turn it is, and a sequencer that would run there. -/
def Obligations.InvalidConfigurationNeverRuns : Prop :=
  ∀ s : State, s.cfg.valid = false →
    (s.busy = false → let t := writeRegister 0x0C 1 s
        readRegister 0x10 t = 0x10C ∧ t.busy = false ∧ t.cmdptr = s.cmdptr ∧ t.cmdcount = s.cmdcount ∧ t.mem = s.mem)
      ∧ step s = .refused .invalidConfig
      ∧ (s.busy = true → sequencerStep s = .refused .invalidConfig)

/-! ### The host and the SPM -/

/-- 20_memory.md R51, R60: in IDLE a 1-, 2- or 4-byte aligned write through the SPM window stores the low bytes of the data,
little-endian, and nothing else changes; reading it back returns them. -/
def Obligations.HostWriteThenRead : Prop :=
  ∀ (s : State) (a n : Nat) (v : Word), s.busy = false → n ∈ [1, 2, 4] → a % n = 0 → a + n ≤ s.cfg.memBytes →
    busTarget s.cfg (s.cfg.spmBase + a) = .spm a →
    ∃ t u, hostAccess (.write (s.cfg.spmBase + a) n v) s = .next t
      ∧ t = { s with mem := t.mem } ∧ SameOutside s.mem t.mem a n
      ∧ (∀ i, i < n → readByte t.mem (a + i) = some (BitVec.ofNat 8 (v.toNat / 2 ^ (8 * i))))
      ∧ hostAccess (.read (s.cfg.spmBase + a) n) t = .next u
      ∧ u = { t with hostData := some (BitVec.ofNat 32 (v.toNat % 2 ^ (8 * n))) }

/-- 20_memory.md R59, 10_state.md R24: a host read, of a register or of the SPM, changes nothing in the block. -/
def Obligations.HostReadsHaveNoSideEffect : Prop :=
  ∀ (s t : State) (addr n : Nat), hostAccess (.read addr n) s = .next t →
    t = { s with hostData := t.hostData, draws := t.draws }

/-- 20_memory.md R60, R64: a host read in IDLE of a footprint of the interface always completes, whatever is written, and
written bytes read as they stand. An unwritten byte is a draw; that the counter `draws` grows by one for each is the model's choice
(DESIGN CHOICE, assumption log entry 5), and so is that no STATUS read need come first (DESIGN CHOICE, assumption log entry 20). -/
def Obligations.HostSpmReadsComplete : Prop :=
  ∀ (s : State) (a n : Nat), s.busy = false → n ∈ [1, 2, 4] → a % n = 0 → a + n ≤ s.cfg.memBytes →
    busTarget s.cfg (s.cfg.spmBase + a) = .spm a →
    ∃ t, hostAccess (.read (s.cfg.spmBase + a) n) s = .next t
      ∧ t.draws = s.draws + ((List.range n).filter fun i => readByte s.mem (a + i) = none).length
      ∧ (AllWritten s.mem a n → t.hostData = some (BitVec.ofNat 32 (memRead s.mem a n)))

/-- 20_memory.md R61: a host access to the SPM while BUSY = 1 is the model fault HostBusyAccess. -/
def Obligations.BusySpmAccessStops : Prop :=
  ∀ (s : State) (a n : Nat) (v : Word), s.busy = true → n ∈ [1, 2, 4] → a % n = 0 → a + n ≤ s.cfg.memBytes →
    busTarget s.cfg (s.cfg.spmBase + a) = .spm a →
    hostAccess (.read (s.cfg.spmBase + a) n) s = .fault .hostBusyAccess
      ∧ hostAccess (.write (s.cfg.spmBase + a) n v) s = .fault .hostBusyAccess

/-- 20_memory.md R62: a misaligned SPM access, one of another width, one past the window, and a register access that is not an
aligned 32-bit access are refused. The model's choices in it (DESIGN CHOICE): refused while BUSY too, and an access that begins in
the SPM window and ends past it is outside (assumption log entry 12); so is an address in both windows (assumption log entry 9). -/
def Obligations.AccessesOutsideTheInterfaceAreRefused : Prop :=
  ∀ (s : State) (addr n : Nat) (v : Word),
    (busTarget s.cfg addr = .outside
        ∨ (∃ a, busTarget s.cfg addr = .spm a ∧ (n ∉ [1, 2, 4] ∨ a % n ≠ 0 ∨ s.cfg.memBytes < a + n))
        ∨ ∃ off, busTarget s.cfg addr = .register off ∧ (n ≠ 4 ∨ off % 4 ≠ 0)) →
    hostAccess (.read addr n) s = .refused .hostBusError ∧ hostAccess (.write addr n v) s = .refused .hostBusError

/-! ### Reset -/

/-- 70_reset_and_hazards.md R271: soft reset. In IDLE the SPM is preserved. In RUNNING the output footprint of the command in
progress is unwritten afterwards and no other byte changes; a command that writes nothing (HALT, NOP, a descriptor or operands that
fail their checks, a CMDPTR that fails its own) leaves the SPM as it was. After a descriptor that cannot be read the whole SPM is
unwritten. Two clauses are the model's choice (DESIGN CHOICE, assumption log entry 8): that last one, and that a command whose checks
fail leaves the SPM as it was. -/
def Obligations.SoftResetAbortsTheCommand : Prop :=
  (∀ s : State, RegistersReset s (softReset s))
    ∧ (∀ s : State, s.busy = false → (softReset s).mem = s.mem)
    ∧ (∀ s : State, s.busy = true → s.cmdptr.toNat % 4 ≠ 0 ∨ s.cfg.memBytes < s.cmdptr.toNat + 20 →
        (softReset s).mem = s.mem)
    ∧ (∀ (s : State) (d : Descriptor) (i : Instr) (o : Operands), Fetches s d → decode d = .ok i →
        operandsOf i = some o → OperandsValid s.cfg i o →
        (∀ x, o.out.addr ≤ x → x < o.out.addr + o.out.kind.size s.cfg → readByte (softReset s).mem x = none)
          ∧ SameOutside s.mem (softReset s).mem o.out.addr (o.out.kind.size s.cfg))
    ∧ (∀ (s : State) (d : Descriptor), Fetches s d →
        (∀ i o, decode d = .ok i → operandsOf i = some o → ¬OperandsValid s.cfg i o) → (softReset s).mem = s.mem)
    ∧ ∀ s : State, s.busy = true → s.cmdptr.toNat % 4 = 0 → s.cmdptr.toNat + 20 ≤ s.cfg.memBytes →
        ¬AllWritten s.mem s.cmdptr.toNat 20 → ∀ x, readByte (softReset s).mem x = none

/-- 70_reset_and_hazards.md R270 and 10_state.md R37, the hard reset column, as the host then reads the registers; the SPM is
unwritten throughout; and the reset state of the model is that state, with the model's own fields as it chooses them (DESIGN CHOICE,
assumption log entries 5, 6, 12). -/
def Obligations.HardResetValues : Prop :=
  (∀ s : State,
      RegistersReset s (hardReset s) ∧ (∀ x, readByte (hardReset s).mem x = none)
        ∧ readRegister 0x00 (hardReset s) = readRegister 0x00 s
        ∧ readRegister 0x04 (hardReset s) = readRegister 0x04 s
        ∧ readRegister 0x08 (hardReset s) = readRegister 0x08 s
        ∧ readRegister 0x0C (hardReset s) = 0
        ∧ readRegister 0x10 (hardReset s) = (if s.cfg.valid = true then 0 else 8)
        ∧ readRegister 0x14 (hardReset s) = 0 ∧ readRegister 0x18 (hardReset s) = 0
        ∧ irq (hardReset s) = false)
    ∧ ∀ (s : State) (p : Params), s.cfg = p → s.inbox = [] → s.hostData = none → s.draws = 0 →
        hardReset s = State.resetOf p

/-- 70_reset_and_hazards.md R272: after either reset the sequencer is IDLE and its step fetches nothing; both interrupt sources are
masked, so IRQ = 0; and a START accepted then (no CMDPTR write between) is RUNNING with CMDPTR = 0. -/
def Obligations.AfterResetNothingIsFetched : Prop :=
  ∀ s t : State, (t = hardReset s ∨ t = softReset s) →
    t.busy = false ∧ sequencerStep t = .next t ∧ t.ieDone = false ∧ t.ieErr = false ∧ irq t = false
      ∧ (t.cfg.valid = true → (startRequest t).busy = true ∧ (startRequest t).cmdptr = 0)

/-! ### Invariants of the whole machine -/

/-- The invariant holds in the reset state of every configuration, `State.reset` among them. -/
def Obligations.ResetMeetsTheMachineInvariant : Prop :=
  (∀ p : Params, MachineInv (State.resetOf p)) ∧ MachineInv State.reset

/-- 10_state.md R30 (BUSY excludes DONE and ERR, DONE excludes ERR, ERRCODE ≠ 0 exactly when ERR = 1), ERRCODE at most 9, a run only
in a valid configuration, and the SPM in canonical form inside MEM_BYTES: every step of any agent keeps them. -/
def Obligations.EveryStepKeepsTheMachineInvariant : Prop :=
  ∀ s t : State, MachineInv s → step s = .next t → MachineInv t

/-- 00_scope.md R7, 10_state.md R20: no step changes the configuration, so PARAM0, PARAM1, MEMSIZE and CFGERR are constant. -/
def Obligations.EveryStepKeepsTheConfiguration : Prop :=
  ∀ s t : State, step s = .next t →
    t.cfg = s.cfg ∧ readRegister 0x00 t = readRegister 0x00 s ∧ readRegister 0x04 t = readRegister 0x04 s
      ∧ readRegister 0x08 t = readRegister 0x08 s
      ∧ (readRegister 0x10 t).getLsbD 3 = (readRegister 0x10 s).getLsbD 3

/-- 46_sequencer_control.md R201, 70_reset_and_hazards.md R285: a step raises BUSY only by a host write of CTRL with START and not SRST,
in a valid configuration; and a sequencer step that leaves the sequencer RUNNING leaves IRQ as it was. That the host's write is the
oldest turn of the inbox is the model's scheduling (DESIGN CHOICE, assumption log entry 6). -/
def Obligations.BusyRisesOnlyByAHostStart : Prop :=
  (∀ s t : State, step s = .next t → s.busy = false → t.busy = true →
      ∃ addr v rest, s.inbox = .access (.write addr 4 v) :: rest ∧ busTarget s.cfg addr = .register 0x0C
        ∧ v.getLsbD 0 = true ∧ v.getLsbD 1 = false ∧ s.cfg.valid = true)
    ∧ ∀ s t : State, StatusInv s → s.busy = true → sequencerStep s = .next t → t.busy = true → irq t = irq s
end

