-- ==== Sys2Proof/Laws/Memory.lean ====
section
/-! SUPPORT. The laws of the SPM operations of Machine/Ops.lean: read after write, the canonical form, and what a block of
written elements reads as. -/

namespace Sys2Proof.Machine

/-! ### The canonical form -/

theorem wf_cons_iff (c : Host.Cell) (m : Memory) :
    Memory.wf (c :: m) = true ↔ (∀ d ∈ m, c.1 < d.1) ∧ Memory.wf m = true := by
  induction m generalizing c with
  | nil => simp [Memory.wf]
  | cons d m ih =>
    simp only [Memory.wf, Bool.and_eq_true, decide_eq_true_eq, List.mem_cons, forall_eq_or_imp]
    constructor
    · rintro ⟨h, hw⟩
      have := (ih d).1 hw
      exact ⟨⟨h, fun e he => lt_trans h (this.1 e he)⟩, hw⟩
    · rintro ⟨⟨h, _⟩, hw⟩
      exact ⟨h, hw⟩

theorem mem_writeByte {m : Memory} {a : Nat} {v : Byte} {c : Host.Cell} (h : c ∈ writeByte m a v) :
    c = (a, v) ∨ c ∈ m := by
  induction m with
  | nil => simpa [writeByte] using h
  | cons d m ih =>
    simp only [writeByte] at h
    split at h
    · simpa using h
    · split at h
      · rcases List.mem_cons.1 h with h | h
        · exact .inl h
        · exact .inr (List.mem_cons_of_mem _ h)
      · rcases List.mem_cons.1 h with h | h
        · exact .inr (h ▸ List.mem_cons_self)
        · exact (ih h).imp_right (List.mem_cons_of_mem _)

/-- A write keeps the canonical form. -/
theorem wf_writeByte {m : Memory} (h : Memory.wf m = true) (a : Nat) (v : Byte) :
    Memory.wf (writeByte m a v) = true := by
  induction m with
  | nil => rfl
  | cons d m ih =>
    have hd := (wf_cons_iff d m).1 h
    simp only [writeByte]
    split
    · next hlt =>
      rw [wf_cons_iff]
      refine ⟨fun e he => ?_, h⟩
      rcases List.mem_cons.1 he with rfl | he
      · exact hlt
      · exact lt_trans hlt (hd.1 e he)
    · split
      · next heq => rw [wf_cons_iff]; exact ⟨fun e he => heq ▸ hd.1 e he, hd.2⟩
      · next hlt hne =>
        rw [wf_cons_iff]
        refine ⟨fun e he => ?_, ih hd.2⟩
        rcases mem_writeByte he with rfl | he
        · show d.1 < a; omega
        · exact hd.1 e he

/-- A write of any length keeps the canonical form. -/
theorem wf_writeBytes {m : Memory} (h : Memory.wf m = true) (a : Nat) (bs : List Byte) :
    Memory.wf (writeBytes m a bs) = true := by
  induction bs generalizing m a with
  | nil => exact h
  | cons b bs ih => exact ih (wf_writeByte h a b) (a + 1)

/-- Marking bytes unwritten keeps the canonical form. -/
theorem wf_forget {m : Memory} (h : Memory.wf m = true) (a n : Nat) : Memory.wf (forget m a n) = true := by
  induction m with
  | nil => rfl
  | cons d m ih =>
    have hd := (wf_cons_iff d m).1 h
    have ih := ih hd.2
    unfold forget at ih ⊢
    rw [List.filter_cons]
    split
    · rw [wf_cons_iff]; exact ⟨fun e he => hd.1 e (List.mem_filter.1 he).1, ih⟩
    · exact ih

/-! ### Reading back -/

theorem readByte_writeByte (m : Memory) (a : Nat) (v : Byte) (x : Nat) :
    readByte (writeByte m a v) x = if x = a then some v else readByte m x := by
  induction m with
  | nil => simp [writeByte, readByte]
  | cons c m ih =>
    simp only [writeByte]
    split
    · simp only [readByte]
    · split
      · next h => simp only [readByte]; subst h; split <;> simp_all
      · next h1 h2 =>
        simp only [readByte, ih]
        split
        · next h => rw [if_neg (by omega)]
        · rfl

/-- A block write gives its bytes inside the block and leaves every other address alone. -/
theorem readByte_writeBytes (m : Memory) (a : Nat) (bs : List Byte) (x : Nat) :
    readByte (writeBytes m a bs) x = if a ≤ x ∧ x < a + bs.length then bs[x - a]? else readByte m x := by
  induction bs generalizing m a with
  | nil => simp only [writeBytes, List.length_nil]; rw [if_neg (by omega)]
  | cons b bs ih =>
    simp only [writeBytes, ih, List.length_cons, readByte_writeByte]
    by_cases h : x = a
    · subst h; rw [if_neg (by omega), if_pos rfl, if_pos (by omega)]; simp
    · by_cases h2 : a + 1 ≤ x ∧ x < a + 1 + bs.length
      · rw [if_pos h2, if_pos (by omega)]
        obtain ⟨k, rfl⟩ : ∃ k, x = a + 1 + k := ⟨x - (a + 1), by omega⟩
        rw [show a + 1 + k - (a + 1) = k by omega, show a + 1 + k - a = k + 1 by omega]
        simp
      · rw [if_neg h2, if_neg h, if_neg (by omega)]

theorem readByte_writeBytes_outside {m : Memory} {a : Nat} {bs : List Byte} {x : Nat}
    (h : x < a ∨ a + bs.length ≤ x) : readByte (writeBytes m a bs) x = readByte m x := by
  rw [readByte_writeBytes, if_neg (by omega)]

theorem readByte_writeBytes_inside {m : Memory} {a : Nat} {bs : List Byte} {k : Nat} (h : k < bs.length) :
    readByte (writeBytes m a bs) (a + k) = bs[k]? := by
  rw [readByte_writeBytes, if_pos (by omega)]; congr 1; omega

theorem writeBytes_append (m : Memory) (a : Nat) (xs ys : List Byte) :
    writeBytes m a (xs ++ ys) = writeBytes (writeBytes m a xs) (a + xs.length) ys := by
  induction xs generalizing m a with
  | nil => simp [writeBytes]
  | cons x xs ih => simp only [List.cons_append, writeBytes, ih, List.length_cons]; congr 1; omega

theorem readByte_forget (m : Memory) (a n x : Nat) :
    readByte (forget m a n) x = if a ≤ x ∧ x < a + n then none else readByte m x := by
  induction m with
  | nil => simp [forget, readByte]
  | cons c m ih =>
    unfold forget at ih ⊢
    rw [List.filter_cons]
    by_cases hx : x = c.1
    · subst hx
      by_cases h : a ≤ c.1 ∧ c.1 < a + n
      · rw [if_neg (by simp; omega), ih, if_pos h, if_pos h]
      · rw [if_pos (by simp; omega), if_neg h]; simp [readByte]
    · split
      · simp only [readByte, if_neg hx, ih]
      · simp only [readByte, if_neg hx, ih]

theorem readByte_mem {m : Memory} {x : Nat} {b : Byte} (h : readByte m x = some b) : (x, b) ∈ m := by
  induction m with
  | nil => simp [readByte] at h
  | cons c m ih =>
    simp only [readByte] at h
    split at h
    · next hx => cases h; subst hx; exact List.mem_cons_self
    · exact List.mem_cons_of_mem _ (ih h)

/-! ### Written footprints -/

theorem written_iff (m : Memory) (a n : Nat) : written m a n = true ↔ AllWritten m a n := by
  induction n generalizing a with
  | zero => simp [written, AllWritten]; omega
  | succ n ih =>
    simp only [written, Bool.and_eq_true, ih, AllWritten, Option.isSome_iff_exists]
    constructor
    · rintro ⟨h0, h⟩ x h1 h2
      by_cases hx : x = a
      · subst hx; exact h0
      · exact h x (by omega) (by omega)
    · intro h
      exact ⟨h a le_rfl (by omega), fun x h1 h2 => h x (by omega) (by omega)⟩

theorem written_false_iff (m : Memory) (a n : Nat) :
    written m a n = false ↔ ∃ x, a ≤ x ∧ x < a + n ∧ readByte m x = none := by
  rw [← Bool.not_eq_true, written_iff]
  simp only [AllWritten, not_forall]
  constructor
  · rintro ⟨x, h1, h2, h⟩
    refine ⟨x, h1, h2, ?_⟩
    cases hr : readByte m x with
    | none => rfl
    | some b => exact absurd ⟨b, hr⟩ h
  · rintro ⟨x, h1, h2, h⟩
    exact ⟨x, h1, h2, by simp [h]⟩

/-! ### Byte strings and elements -/

@[simp] theorem length_bytesLE (v n : Nat) : (bytesLE v n).length = n := by
  induction n generalizing v with
  | zero => rfl
  | succ n ih => simp [bytesLE, ih]

theorem getElem?_bytesLE (v n k : Nat) (h : k < n) :
    (bytesLE v n)[k]? = some (BitVec.ofNat 8 (v / 2 ^ (8 * k))) := by
  induction n generalizing v k with
  | zero => omega
  | succ n ih =>
    cases k with
    | zero => simp [bytesLE]
    | succ k =>
      simp only [bytesLE, List.getElem?_cons_succ]
      rw [ih _ _ (by omega), Nat.div_div_eq_div_mul, ← pow_add]
      congr 3; ring

/-- A list of equal-length blocks: entry `i` of block `k`. -/
theorem getElem?_flatMap_blocks {β : Type} (w : Nat) (f : Nat → List β) (hf : ∀ k, (f k).length = w) (n k i : Nat)
    (hk : k < n) (hi : i < w) : ((List.range n).flatMap f)[w * k + i]? = (f k)[i]? := by
  have hlen : ∀ j, ((List.range j).flatMap f).length = w * j := by
    intro j
    induction j with
    | zero => simp
    | succ j ih => rw [List.range_succ, List.flatMap_append, List.length_append, ih]; simp [hf]; ring
  induction n with
  | zero => omega
  | succ n ih =>
    rw [List.range_succ, List.flatMap_append]
    by_cases h : k < n
    · have h1 : w * k + i < w * n := by nlinarith
      rw [List.getElem?_append_left (by rw [hlen]; exact h1)]
      exact ih h
    · have : k = n := by omega
      subst this
      rw [List.getElem?_append_right (by rw [hlen]; omega), hlen]
      simp

theorem length_flatMap_blocks {β : Type} (w : Nat) (f : Nat → List β) (hf : ∀ k, (f k).length = w) (n : Nat) :
    ((List.range n).flatMap f).length = w * n := by
  induction n with
  | zero => simp
  | succ n ih => rw [List.range_succ, List.flatMap_append, List.length_append, ih]; simp [hf]; ring

@[simp] theorem length_elemBytes (n : Nat) (f : Nat → Elem) : (elemBytes n f).length = 2 * n :=
  length_flatMap_blocks 2 _ (fun _ => length_bytesLE _ _) n

theorem getElem?_elemBytes (n : Nat) (f : Nat → Elem) (k i : Nat) (hk : k < n) (hi : i < 2) :
    (elemBytes n f)[2 * k + i]? = some (BitVec.ofNat 8 ((f k).toNat / 2 ^ (8 * i))) := by
  unfold elemBytes
  rw [getElem?_flatMap_blocks 2 _ (fun _ => length_bytesLE _ _) n k i hk hi, getElem?_bytesLE _ _ _ hi]

theorem byteAt_of_readByte {m : Memory} {a : Nat} {b : Byte} (h : readByte m a = some b) : byteAt m a = b := by
  simp [byteAt, h]

theorem elemAt_eq (m : Memory) (a : Nat) :
    elemAt m a = BitVec.ofNat 16 ((byteAt m a).toNat + 2 ^ 8 * (byteAt m (a + 1)).toNat) := by
  simp [elemAt, memRead]

/-- Element `k` of a block of elements reads back as it was written. -/
theorem holdsElem_writeBytes_elemBytes (m : Memory) (a n : Nat) (f : Nat → Elem) (k : Nat) (hk : k < n) :
    HoldsElem (writeBytes m a (elemBytes n f)) (a + 2 * k) (f k) := by
  have h : ∀ i, i < 2 → readByte (writeBytes m a (elemBytes n f)) (a + 2 * k + i)
      = some (BitVec.ofNat 8 ((f k).toNat / 2 ^ (8 * i))) := by
    intro i hi
    rw [add_assoc, readByte_writeBytes_inside (by simp; omega), getElem?_elemBytes _ _ _ _ hk hi]
  refine ⟨fun x h1 h2 => ?_, ?_⟩
  · obtain ⟨i, rfl⟩ : ∃ i, x = a + 2 * k + i := ⟨x - (a + 2 * k), by omega⟩
    exact ⟨_, h i (by omega)⟩
  · have h0 := byteAt_of_readByte (h 0 (by omega))
    have h1 := byteAt_of_readByte (h 1 (by omega))
    rw [elemAt_eq, show a + 2 * k + 1 = a + 2 * k + 1 from rfl, h1]
    rw [add_zero] at h0
    rw [h0]
    apply BitVec.eq_of_toNat_eq
    have := (f k).isLt
    simp only [BitVec.toNat_ofNat]
    norm_num
    omega

/-- `memRead` sees only the bytes it reads. -/
theorem memRead_congr {m m' : Memory} {a n : Nat} (h : ∀ x, a ≤ x → x < a + n → readByte m' x = readByte m x) :
    memRead m' a n = memRead m a n := by
  induction n generalizing a with
  | zero => rfl
  | succ n ih =>
    simp only [memRead, byteAt]
    rw [h a le_rfl (by omega), ih fun x h1 h2 => h x (by omega) (by omega)]

theorem elemAt_congr {m m' : Memory} {a : Nat} (h : ∀ x, a ≤ x → x < a + 2 → readByte m' x = readByte m x) :
    elemAt m' a = elemAt m a := by
  unfold elemAt; rw [memRead_congr h]

theorem bytesAt_congr {m m' : Memory} {a n : Nat} (h : ∀ x, a ≤ x → x < a + n → readByte m' x = readByte m x) :
    bytesAt m' a n = bytesAt m a n := by
  unfold bytesAt
  apply List.map_congr_left
  intro i hi
  have := List.mem_range.1 hi
  simp only [byteAt]
  rw [h (a + i) (by omega) (by omega)]

end Sys2Proof.Machine
end

