-- ==== Sys2Proof/Laws/State.lean ====
section
/-! SUPPORT. What each named update of Machine/Ops.lean does to each field, by rfl, so that no later proof unfolds a record
update. -/

namespace Sys2Proof.Machine

@[simp] theorem complete_cfg (s : State) : (complete s).cfg = s.cfg := rfl
@[simp] theorem complete_ieDone (s : State) : (complete s).ieDone = s.ieDone := rfl
@[simp] theorem complete_ieErr (s : State) : (complete s).ieErr = s.ieErr := rfl
@[simp] theorem complete_busy (s : State) : (complete s).busy = s.busy := rfl
@[simp] theorem complete_done (s : State) : (complete s).done = s.done := rfl
@[simp] theorem complete_err (s : State) : (complete s).err = s.err := rfl
@[simp] theorem complete_errcode (s : State) : (complete s).errcode = s.errcode := rfl
@[simp] theorem complete_cmdptr (s : State) : (complete s).cmdptr = s.cmdptr + 20 := rfl
@[simp] theorem complete_cmdcount (s : State) : (complete s).cmdcount = s.cmdcount + 1 := rfl
@[simp] theorem complete_mem (s : State) : (complete s).mem = s.mem := rfl
@[simp] theorem complete_latched (s : State) : (complete s).latched = s.latched := rfl
@[simp] theorem complete_inbox (s : State) : (complete s).inbox = s.inbox := rfl
@[simp] theorem complete_hostData (s : State) : (complete s).hostData = s.hostData := rfl
@[simp] theorem complete_draws (s : State) : (complete s).draws = s.draws := rfl

@[simp] theorem endAtHalt_cfg (s : State) : (endAtHalt s).cfg = s.cfg := rfl
@[simp] theorem endAtHalt_ieDone (s : State) : (endAtHalt s).ieDone = s.ieDone := rfl
@[simp] theorem endAtHalt_ieErr (s : State) : (endAtHalt s).ieErr = s.ieErr := rfl
@[simp] theorem endAtHalt_busy (s : State) : (endAtHalt s).busy = false := rfl
@[simp] theorem endAtHalt_done (s : State) : (endAtHalt s).done = true := rfl
@[simp] theorem endAtHalt_err (s : State) : (endAtHalt s).err = s.err := rfl
@[simp] theorem endAtHalt_errcode (s : State) : (endAtHalt s).errcode = s.errcode := rfl
@[simp] theorem endAtHalt_cmdptr (s : State) : (endAtHalt s).cmdptr = s.cmdptr := rfl
@[simp] theorem endAtHalt_cmdcount (s : State) : (endAtHalt s).cmdcount = s.cmdcount := rfl
@[simp] theorem endAtHalt_mem (s : State) : (endAtHalt s).mem = s.mem := rfl
@[simp] theorem endAtHalt_latched (s : State) : (endAtHalt s).latched = s.latched := rfl
@[simp] theorem endAtHalt_inbox (s : State) : (endAtHalt s).inbox = s.inbox := rfl
@[simp] theorem endAtHalt_hostData (s : State) : (endAtHalt s).hostData = s.hostData := rfl
@[simp] theorem endAtHalt_draws (s : State) : (endAtHalt s).draws = s.draws := rfl

@[simp] theorem raiseFault_cfg (c : FaultCode) (s : State) : (raiseFault c s).cfg = s.cfg := rfl
@[simp] theorem raiseFault_ieDone (c : FaultCode) (s : State) : (raiseFault c s).ieDone = s.ieDone := rfl
@[simp] theorem raiseFault_ieErr (c : FaultCode) (s : State) : (raiseFault c s).ieErr = s.ieErr := rfl
@[simp] theorem raiseFault_busy (c : FaultCode) (s : State) : (raiseFault c s).busy = false := rfl
@[simp] theorem raiseFault_done (c : FaultCode) (s : State) : (raiseFault c s).done = false := rfl
@[simp] theorem raiseFault_err (c : FaultCode) (s : State) : (raiseFault c s).err = true := rfl
@[simp] theorem raiseFault_errcode (c : FaultCode) (s : State) : (raiseFault c s).errcode = c.code := rfl
@[simp] theorem raiseFault_cmdptr (c : FaultCode) (s : State) : (raiseFault c s).cmdptr = s.cmdptr := rfl
@[simp] theorem raiseFault_cmdcount (c : FaultCode) (s : State) : (raiseFault c s).cmdcount = s.cmdcount := rfl
@[simp] theorem raiseFault_mem (c : FaultCode) (s : State) : (raiseFault c s).mem = s.mem := rfl
@[simp] theorem raiseFault_latched (c : FaultCode) (s : State) : (raiseFault c s).latched = s.latched := rfl
@[simp] theorem raiseFault_inbox (c : FaultCode) (s : State) : (raiseFault c s).inbox = s.inbox := rfl
@[simp] theorem raiseFault_hostData (c : FaultCode) (s : State) : (raiseFault c s).hostData = s.hostData := rfl
@[simp] theorem raiseFault_draws (c : FaultCode) (s : State) : (raiseFault c s).draws = s.draws := rfl

@[simp] theorem writeStatus_cfg (v : Word) (s : State) : (writeStatus v s).cfg = s.cfg := rfl
@[simp] theorem writeStatus_ieDone (v : Word) (s : State) : (writeStatus v s).ieDone = s.ieDone := rfl
@[simp] theorem writeStatus_ieErr (v : Word) (s : State) : (writeStatus v s).ieErr = s.ieErr := rfl
@[simp] theorem writeStatus_busy (v : Word) (s : State) : (writeStatus v s).busy = s.busy := rfl
@[simp] theorem writeStatus_done (v : Word) (s : State) : (writeStatus v s).done = (s.done && !v.getLsbD 1) := rfl
@[simp] theorem writeStatus_err (v : Word) (s : State) : (writeStatus v s).err = (s.err && !v.getLsbD 2) := rfl
@[simp] theorem writeStatus_errcode (v : Word) (s : State) : (writeStatus v s).errcode = if v.getLsbD 2 then 0 else s.errcode := rfl
@[simp] theorem writeStatus_cmdptr (v : Word) (s : State) : (writeStatus v s).cmdptr = s.cmdptr := rfl
@[simp] theorem writeStatus_cmdcount (v : Word) (s : State) : (writeStatus v s).cmdcount = s.cmdcount := rfl
@[simp] theorem writeStatus_mem (v : Word) (s : State) : (writeStatus v s).mem = s.mem := rfl
@[simp] theorem writeStatus_latched (v : Word) (s : State) : (writeStatus v s).latched = s.latched := rfl
@[simp] theorem writeStatus_inbox (v : Word) (s : State) : (writeStatus v s).inbox = s.inbox := rfl
@[simp] theorem writeStatus_hostData (v : Word) (s : State) : (writeStatus v s).hostData = s.hostData := rfl
@[simp] theorem writeStatus_draws (v : Word) (s : State) : (writeStatus v s).draws = s.draws := rfl

@[simp] theorem acceptStart_cfg (s : State) : (acceptStart s).cfg = s.cfg := rfl
@[simp] theorem acceptStart_ieDone (s : State) : (acceptStart s).ieDone = s.ieDone := rfl
@[simp] theorem acceptStart_ieErr (s : State) : (acceptStart s).ieErr = s.ieErr := rfl
@[simp] theorem acceptStart_busy (s : State) : (acceptStart s).busy = true := rfl
@[simp] theorem acceptStart_done (s : State) : (acceptStart s).done = false := rfl
@[simp] theorem acceptStart_err (s : State) : (acceptStart s).err = false := rfl
@[simp] theorem acceptStart_errcode (s : State) : (acceptStart s).errcode = 0 := rfl
@[simp] theorem acceptStart_cmdptr (s : State) : (acceptStart s).cmdptr = s.cmdptr := rfl
@[simp] theorem acceptStart_cmdcount (s : State) : (acceptStart s).cmdcount = 0 := rfl
@[simp] theorem acceptStart_mem (s : State) : (acceptStart s).mem = s.mem := rfl
@[simp] theorem acceptStart_latched (s : State) : (acceptStart s).latched = s.latched := rfl
@[simp] theorem acceptStart_inbox (s : State) : (acceptStart s).inbox = s.inbox := rfl
@[simp] theorem acceptStart_hostData (s : State) : (acceptStart s).hostData = s.hostData := rfl
@[simp] theorem acceptStart_draws (s : State) : (acceptStart s).draws = s.draws := rfl

@[simp] theorem resetRegisters_cfg (s : State) : (resetRegisters s).cfg = s.cfg := rfl
@[simp] theorem resetRegisters_ieDone (s : State) : (resetRegisters s).ieDone = false := rfl
@[simp] theorem resetRegisters_ieErr (s : State) : (resetRegisters s).ieErr = false := rfl
@[simp] theorem resetRegisters_busy (s : State) : (resetRegisters s).busy = false := rfl
@[simp] theorem resetRegisters_done (s : State) : (resetRegisters s).done = false := rfl
@[simp] theorem resetRegisters_err (s : State) : (resetRegisters s).err = false := rfl
@[simp] theorem resetRegisters_errcode (s : State) : (resetRegisters s).errcode = 0 := rfl
@[simp] theorem resetRegisters_cmdptr (s : State) : (resetRegisters s).cmdptr = 0 := rfl
@[simp] theorem resetRegisters_cmdcount (s : State) : (resetRegisters s).cmdcount = 0 := rfl
@[simp] theorem resetRegisters_mem (s : State) : (resetRegisters s).mem = s.mem := rfl
@[simp] theorem resetRegisters_latched (s : State) : (resetRegisters s).latched = none := rfl
@[simp] theorem resetRegisters_inbox (s : State) : (resetRegisters s).inbox = s.inbox := rfl
@[simp] theorem resetRegisters_hostData (s : State) : (resetRegisters s).hostData = s.hostData := rfl
@[simp] theorem resetRegisters_draws (s : State) : (resetRegisters s).draws = s.draws := rfl

@[simp] theorem hardReset_cfg (s : State) : (hardReset s).cfg = s.cfg := rfl
@[simp] theorem hardReset_ieDone (s : State) : (hardReset s).ieDone = false := rfl
@[simp] theorem hardReset_ieErr (s : State) : (hardReset s).ieErr = false := rfl
@[simp] theorem hardReset_busy (s : State) : (hardReset s).busy = false := rfl
@[simp] theorem hardReset_done (s : State) : (hardReset s).done = false := rfl
@[simp] theorem hardReset_err (s : State) : (hardReset s).err = false := rfl
@[simp] theorem hardReset_errcode (s : State) : (hardReset s).errcode = 0 := rfl
@[simp] theorem hardReset_cmdptr (s : State) : (hardReset s).cmdptr = 0 := rfl
@[simp] theorem hardReset_cmdcount (s : State) : (hardReset s).cmdcount = 0 := rfl
@[simp] theorem hardReset_mem (s : State) : (hardReset s).mem = [] := rfl
@[simp] theorem hardReset_latched (s : State) : (hardReset s).latched = none := rfl
@[simp] theorem hardReset_inbox (s : State) : (hardReset s).inbox = s.inbox := rfl
@[simp] theorem hardReset_hostData (s : State) : (hardReset s).hostData = s.hostData := rfl
@[simp] theorem hardReset_draws (s : State) : (hardReset s).draws = s.draws := rfl

end Sys2Proof.Machine
end

