-- ==== Sys2Proof/Laws/Commands.lean ====
section
/-! SUPPORT. What each shared operation of a command can do, once: validation, `runCommand`, `exec`, and one step of the
sequencer. -/

namespace Sys2Proof.Machine

/-! ### Validation -/

/-- When every operand check of 46_sequencer_control.md R202 passes. -/
theorem validate_none_iff (p : Params) (idx : Bool) (o : Operands) :
    validate p idx o = none ↔
      idx = true ∧ (∀ x ∈ o.out :: o.ins, x.misaligned = false) ∧ (∀ x ∈ o.out :: o.ins, x.pastEnd p = false)
        ∧ ∀ x ∈ o.ins, slotClashes p o.out x = false := by
  unfold validate
  cases idx with
  | false => simp
  | true =>
    simp only [Bool.not_true, Bool.false_eq_true, if_false, true_and]
    split
    · next h =>
      simp only [List.any_eq_true] at h
      obtain ⟨x, hx, h⟩ := h
      simp only [reduceCtorEq, false_iff]
      rintro ⟨h1, -⟩
      simp [h1 x hx] at h
    · next h1 =>
      have h1 : ∀ x ∈ o.out :: o.ins, x.misaligned = false := by simpa [List.any_eq_true] using h1
      split
      · next h =>
        simp only [List.any_eq_true] at h
        obtain ⟨x, hx, h⟩ := h
        simp only [reduceCtorEq, false_iff]
        rintro ⟨-, h2, -⟩
        simp [h2 x hx] at h
      · next h2 =>
        have h2 : ∀ x ∈ o.out :: o.ins, x.pastEnd p = false := by simpa [List.any_eq_true] using h2
        split
        · next h =>
          simp only [List.any_eq_true] at h
          obtain ⟨x, hx, h⟩ := h
          simp only [reduceCtorEq, false_iff]
          rintro ⟨-, -, h3⟩
          simp [h3 x hx] at h
        · next h3 => simp only [true_iff]; exact ⟨h1, h2, by simpa [List.any_eq_true] using h3⟩

/-- Validation raises one of the last four codes of 60_exceptions.md R233's order. -/
theorem validate_some {p : Params} {idx : Bool} {o : Operands} {c : FaultCode} (h : validate p idx o = some c) :
    c = .badIndex ∨ c = .bufMisaligned ∨ c = .bufRange ∨ c = .overlap := by
  unfold validate at h
  split at h <;> try (cases h; simp)
  split at h <;> try (cases h; simp)
  split at h <;> try (cases h; simp)
  split at h <;> simp_all

theorem clashes_false_iff (p : Params) (out x : Slot) :
    slotClashes p out x = false ↔
      Apart out.addr (out.kind.size p) x.addr (x.kind.size p) ∨ (x.aliasOk = true ∧ out.addr = x.addr) := by
  unfold slotClashes overlaps Apart
  simp only [Bool.and_eq_false_iff, decide_eq_false_iff_not, Bool.not_eq_false', Bool.and_eq_true, beq_iff_eq, not_lt]

theorem misaligned_false_iff (x : Slot) : x.misaligned = false ↔ (x.kind.isMatrix = true → Even2 x.addr) := by
  unfold Slot.misaligned Even2
  cases x.kind.isMatrix <;> simp

theorem pastEnd_false_iff (p : Params) (x : Slot) :
    x.pastEnd p = false ↔ InRange p x.addr (x.kind.size p) := by
  unfold Slot.pastEnd InRange
  simp

theorem inputsWritten_iff (p : Params) (m : Memory) (o : Operands) :
    inputsWritten p m o = true ↔ ∀ x ∈ o.reads, AllWritten m x.addr (x.kind.size p) := by
  unfold inputsWritten
  simp only [List.all_eq_true, written_iff]

/-! ### One command -/

/-- A command that passes validation and whose inputs are written completes. -/
theorem runCommand_completes {idx : Bool} {o : Operands} {bs : List Byte} {s : State}
    (hv : validate s.cfg idx o = none) (hw : inputsWritten s.cfg s.mem o = true) :
    runCommand idx o bs s = .next (complete { s with mem := writeBytes s.mem o.out.addr bs }) := by
  unfold runCommand; simp only [hv, hw, if_true]

/-- A command whose validation fails takes the fault. -/
theorem runCommand_faults {idx : Bool} {o : Operands} {bs : List Byte} {s : State} {c : FaultCode}
    (hv : validate s.cfg idx o = some c) : runCommand idx o bs s = .next (raiseFault c s) := by
  unfold runCommand; simp only [hv]

/-- A validated command that reads an unwritten byte stops. -/
theorem runCommand_unwritten {idx : Bool} {o : Operands} {bs : List Byte} {s : State}
    (hv : validate s.cfg idx o = none) (hw : inputsWritten s.cfg s.mem o = false) :
    runCommand idx o bs s = .fault .unwrittenRead := by
  unfold runCommand; simp [hv, hw]

/-- All that a command with operands can do when it answers a next state. -/
theorem runCommand_next {idx : Bool} {o : Operands} {bs : List Byte} {s t : State}
    (h : runCommand idx o bs s = .next t) :
    (∃ c, validate s.cfg idx o = some c ∧ t = raiseFault c s) ∨
      (validate s.cfg idx o = none ∧ inputsWritten s.cfg s.mem o = true
        ∧ t = complete { s with mem := writeBytes s.mem o.out.addr bs }) := by
  cases hv : validate s.cfg idx o with
  | some c => rw [runCommand_faults hv] at h; cases h; exact .inl ⟨c, rfl, rfl⟩
  | none =>
    cases hw : inputsWritten s.cfg s.mem o with
    | false => rw [runCommand_unwritten hv hw] at h; cases h
    | true => rw [runCommand_completes hv hw] at h; cases h; exact .inr ⟨rfl, rfl, rfl⟩

/-- The bytes a command computes from the Snapshot (20_memory.md R57); none for HALT and NOP. -/
def outputBytes (s : State) : Instr → List Byte
  | .halt => []
  | .nop => []
  | .radd _ a b => elemBytes (s.cfg.nbar * s.cfg.nbar) (raddElem s.cfg s.mem a b)
  | .rsub _ a b => elemBytes (s.cfg.nbar * s.cfg.nbar) (rsubElem s.cfg s.mem a b)
  | .genrow r _ seed => genrowBytes Config.expand s.cfg s.mem r seed
  | .genblk kk _ seed => genblkBytes Config.expand s.cfg s.mem kk seed
  | .macr q out secret seed => macrBytes Config.expand s.cfg s.mem q out secret seed
  | .macl q out secret seed => maclBytes Config.expand s.cfg s.mem q out secret seed
  | .dmulr _ b sm => elemBytes (s.cfg.nbar * s.cfg.nbar) fun k =>
      dmulrElem s.cfg s.mem b sm (k / s.cfg.nbar) (k % s.cfg.nbar)
  | .dmaddl _ b sm e => elemBytes (s.cfg.nbar * s.cfg.nbar) fun k =>
      dmaddlElem s.cfg s.mem b sm e (k / s.cfg.nbar) (k % s.cfg.nbar)
  | .enc _ key => elemBytes (8 * s.cfg.scratch) (encElem s.cfg s.mem key)
  | .dec _ mat => decBytes s.cfg s.mem mat

/-- A command with operands is `runCommand` of its operands and output bytes. -/
theorem exec_eq_runCommand {i : Instr} {o : Operands} (s : State) (h : operandsOf i = some o) :
    exec i s = runCommand (indexOk s.cfg i) o (outputBytes s i) s := by
  cases i <;> simp only [operandsOf, Option.some.injEq, reduceCtorEq] at h <;> subst h <;> rfl

/-- The output bytes fill the output footprint and no more. -/
theorem length_outputBytes_le {i : Instr} {o : Operands} (s : State) (h : operandsOf i = some o) :
    (outputBytes s i).length ≤ o.out.kind.size s.cfg := by
  cases i <;> simp only [operandsOf, Option.some.injEq, reduceCtorEq] at h <;> subst h <;>
    simp only [outputBytes, ringOperands, genrowOperands, genblkOperands, macrOperands, maclOperands, dmulrOperands,
      dmaddlOperands, encOperands, decOperands, input, Kind.size, length_elemBytes, genrowBytes, macrBytes, maclBytes]
  case genblk => rw [genblkBytes, length_flatMap_blocks (2 * s.cfg.n) _ (fun _ => length_elemBytes _ _)]; omega
  case enc => rw [Params.scratch, pow_two]; omega
  case dec =>
    rw [decBytes, length_flatMap_blocks s.cfg.eb _ (fun _ => length_bytesLE _ _), Params.scratch, Params.keyBytes,
      Nat.le_div_iff_mul_le (by norm_num)]
    have := Nat.div_mul_le_self (s.cfg.nbar * s.cfg.nbar) 8
    nlinarith
  all_goals nlinarith

/-- In a valid configuration the output bytes fill the output footprint exactly (20_memory.md R57). -/
theorem length_outputBytes {i : Instr} {o : Operands} (s : State) (h : operandsOf i = some o)
    (hp : s.cfg.valid = true) : (outputBytes s i).length = o.out.kind.size s.cfg := by
  have hn : s.cfg.nbar * s.cfg.nbar % 8 = 0 := by
    simp only [Params.valid, Bool.and_eq_true, beq_iff_eq, decide_eq_true_eq] at hp; omega
  cases i <;> simp only [operandsOf, Option.some.injEq, reduceCtorEq] at h <;> subst h <;>
    simp only [outputBytes, ringOperands, genrowOperands, genblkOperands, macrOperands, maclOperands, dmulrOperands,
      dmaddlOperands, encOperands, decOperands, input, Kind.size, length_elemBytes, genrowBytes, macrBytes, maclBytes]
  case genblk => rw [genblkBytes, length_flatMap_blocks (2 * s.cfg.n) _ (fun _ => length_elemBytes _ _)]; omega
  case enc => rw [Params.scratch, pow_two]; omega
  case dec =>
    rw [decBytes, length_flatMap_blocks s.cfg.eb _ (fun _ => length_bytesLE _ _), Params.scratch, Params.keyBytes]
    obtain ⟨q, hq⟩ := Nat.dvd_of_mod_eq_zero hn
    rw [hq, mul_assoc, Nat.mul_div_cancel_left _ (by norm_num), Nat.mul_div_cancel_left _ (by norm_num), mul_comm]
  all_goals ring

/-- All that `exec` can do when it answers a next state (46_sequencer_control.md R203 to R205). -/
theorem exec_next {i : Instr} {s t : State} (h : exec i s = .next t) :
    (i = .halt ∧ t = endAtHalt s) ∨ (i = .nop ∧ t = complete s) ∨
      ∃ o, operandsOf i = some o ∧
        ((∃ c, validate s.cfg (indexOk s.cfg i) o = some c ∧ t = raiseFault c s) ∨
          (validate s.cfg (indexOk s.cfg i) o = none ∧ inputsWritten s.cfg s.mem o = true
            ∧ t = complete { s with mem := writeBytes s.mem o.out.addr (outputBytes s i) })) := by
  cases ho : operandsOf i with
  | none =>
    cases i <;> simp only [operandsOf, reduceCtorEq] at ho
    · cases h; exact .inl ⟨rfl, rfl⟩
    · cases h; exact .inr (.inl ⟨rfl, rfl⟩)
  | some o =>
    rw [exec_eq_runCommand s ho] at h
    exact .inr (.inr ⟨o, rfl, runCommand_next h⟩)

/-! ### One step of the sequencer -/

/-- All that one step of the sequencer can do when it answers a next state (46_sequencer_control.md R200, R202). -/
theorem sequencerStep_next {s t : State} (h : sequencerStep s = .next t) :
    (s.busy = false ∧ t = s) ∨
      (s.busy = true ∧ s.cfg.valid = true ∧
        ((∃ c, fetchFault s = some c ∧ t = raiseFault c s) ∨
          ∃ d, fetchFault s = none ∧ fetchWords s.mem s.cmdptr.toNat = some d ∧
            ((∃ e, decode d = .error e ∧ t = raiseFault (rejectionCode e) { s with latched := some d }) ∨
              ∃ i, decode d = .ok i ∧ exec i { s with latched := some d } = .next t))) := by
  unfold sequencerStep at h
  split at h
  · next hb =>
    refine .inr ⟨hb, ?_⟩
    split at h
    · cases h
    · next hc =>
      refine ⟨by simpa [cfgErr] using hc, ?_⟩
      split at h
      · next c hf => cases h; exact .inl ⟨c, hf, rfl⟩
      · next hf =>
        split at h
        · cases h
        · next d hd =>
          refine .inr ⟨d, hf, hd, ?_⟩
          unfold runDescriptor at h
          split at h
          · next e he => cases h; exact .inl ⟨e, he, rfl⟩
          · next i hi => exact .inr ⟨i, hi, h⟩
  · next hb => cases h; exact .inl ⟨by simpa using hb, rfl⟩

/-- The fetch raises one of the first two codes of 60_exceptions.md R233's order. -/
theorem fetchFault_some {s : State} {c : FaultCode} (h : fetchFault s = some c) :
    c = .descMisaligned ∨ c = .descRange := by
  unfold fetchFault at h
  split at h
  · cases h; exact .inl rfl
  · split at h <;> simp_all

/-- Where a descriptor is fetched, it is aligned and inside SPM. -/
theorem fetchFault_none {s : State} (h : fetchFault s = none) :
    s.cmdptr.toNat % 4 = 0 ∧ s.cmdptr.toNat + 20 ≤ s.cfg.memBytes := by
  unfold fetchFault at h
  split at h
  · cases h
  · split at h
    · cases h
    · omega

/-! ### In the words of the claims -/

/-- Validation accepts exactly the operands the claims call valid. -/
theorem validate_iff_operandsValid (p : Params) (i : Instr) (o : Operands) :
    validate p (indexOk p i) o = none ↔ OperandsValid p i o := by
  rw [validate_none_iff]
  unfold OperandsValid
  simp only [misaligned_false_iff, pastEnd_false_iff, clashes_false_iff]

/-- The next state of a command whose operands are valid and whose inputs are written. -/
theorem exec_eq_complete {i : Instr} {o : Operands} {s : State} (ho : operandsOf i = some o)
    (hv : OperandsValid s.cfg i o) (hw : InputsWritten s o) :
    exec i s = .next (complete { s with mem := writeBytes s.mem o.out.addr (outputBytes s i) }) := by
  rw [exec_eq_runCommand s ho]
  exact runCommand_completes ((validate_iff_operandsValid _ _ _).2 hv) ((inputsWritten_iff _ _ _).2 hw)

/-- Writing bytes that fit a footprint and completing is a completion on that footprint. -/
theorem completed_writeBytes {s : State} {a n : Nat} {bs : List Byte} (h : bs.length ≤ n) :
    Completed s (complete { s with mem := writeBytes s.mem a bs }) a n :=
  ⟨rfl, fun _ _ => readByte_writeBytes_outside (by omega)⟩

/-- What a valid configuration bounds (00_scope.md R9, R10). -/
theorem valid_bounds {p : Params} (h : p.valid = true) :
    p.nbar * p.nbar % 8 = 0 ∧ 0 < p.eb ∧ p.eb < p.logq ∧ p.logq ≤ 16 ∧ p.eb ≤ 8 ∧ p.n % 4 = 0 ∧ p.n ≤ 65280
      ∧ p.nbar ≤ 255 ∧ p.seedBytes ≤ 65535 ∧ p.memBytes ≤ 2 ^ 31 := by
  simp only [Params.valid, Bool.and_eq_true, beq_iff_eq, decide_eq_true_eq] at h
  tauto

/-- Everything one step of a RUNNING sequencer can do when it answers a next state: take a fault, end at HALT, or complete a
command that writes inside the SPM. -/
theorem sequencerStep_running {s t : State} (hb : s.busy = true) (h : sequencerStep s = .next t) :
    s.cfg.valid = true ∧
      ((∃ c l, c ≠ FaultCode.cfgInvalid ∧ t = raiseFault c { s with latched := l }) ∨
        (∃ l, t = endAtHalt { s with latched := l }) ∨
        (∃ l m, s.cmdptr.toNat + 20 ≤ s.cfg.memBytes ∧ t = complete { s with latched := l, mem := m } ∧
          (m = s.mem ∨ ∃ a bs, a + bs.length ≤ s.cfg.memBytes ∧ m = writeBytes s.mem a bs))) := by
  rcases sequencerStep_next h with ⟨hb', _⟩ | ⟨_, hv, h⟩
  · simp [hb] at hb'
  refine ⟨hv, ?_⟩
  rcases h with ⟨c, hc, rfl⟩ | ⟨d, hf, hd, ⟨e, he, rfl⟩ | ⟨i, hi, hx⟩⟩
  · exact .inl ⟨c, s.latched, by rcases fetchFault_some hc with rfl | rfl <;> simp, rfl⟩
  · exact .inl ⟨_, some d, by cases e <;> simp [rejectionCode], rfl⟩
  · rcases exec_next hx with ⟨rfl, rfl⟩ | ⟨rfl, rfl⟩ | ⟨o, ho, ⟨c, hc, rfl⟩ | ⟨hv', hw, rfl⟩⟩
    · exact .inr (.inl ⟨_, rfl⟩)
    · exact .inr (.inr ⟨some d, s.mem, (fetchFault_none hf).2, rfl, .inl rfl⟩)
    · exact .inl ⟨c, some d, by rcases validate_some hc with rfl | rfl | rfl | rfl <;> simp, rfl⟩
    · refine .inr (.inr ⟨some d, _, (fetchFault_none hf).2, rfl, .inr ⟨_, _, ?_, rfl⟩⟩)
      have h1 := ((validate_iff_operandsValid _ _ _).1 hv').2.2.1 o.out (by simp)
      have h2 := length_outputBytes_le { s with latched := some d } ho
      unfold InRange at h1
      simp only at h1 h2
      omega

/-- A descriptor that is fetched passes the address checks and is read whole. -/
theorem fetchWords_of_fetches {s : State} {d : Descriptor} (h : Fetches s d) :
    fetchFault s = none ∧ fetchWords s.mem s.cmdptr.toNat = some d := by
  obtain ⟨-, h4, h20, hw, h0, h1, h2, h3, h5⟩ := h
  constructor
  · unfold fetchFault; rw [if_neg (by omega), if_neg (by omega)]
  · unfold fetchWords; rw [if_pos ((written_iff _ _ _).2 hw)]; simp only [← h0, ← h1, ← h2, ← h3, ← h5]

/-- A fetched descriptor is what the sequencer's step runs. -/
theorem sequencerStep_of_fetches {s : State} {d : Descriptor} (h : Fetches s d) :
    sequencerStep s = runDescriptor d s := by
  obtain ⟨hf, hw⟩ := fetchWords_of_fetches h
  unfold sequencerStep
  simp [h.1.1, cfgErr, h.1.2, hf, hw]

end Sys2Proof.Machine
end

