-- ==== Sys2Proof/Laws/Datapath.lean ====
section
/-! SUPPORT. The datapath's operations in arithmetic: reduction, the accumulation loop, and the codec's fields and scratch words. -/

namespace Sys2Proof.Machine

/-- Reduction is a remainder (41_ring_arithmetic.md R104). -/
theorem red_toNat (p : Params) (x : Elem) (h : p.logq ≤ 16) : (red p x).toNat = x.toNat % 2 ^ p.logq := by
  unfold red Params.maskQ
  have h1 : 2 ^ p.logq ≤ 2 ^ 16 := Nat.pow_le_pow_right (by norm_num) h
  have h2 := Nat.pos_of_ne_zero (pow_ne_zero p.logq (two_ne_zero (α := Nat)))
  rw [BitVec.toNat_and, BitVec.toNat_ofNat, Nat.mod_eq_of_lt (by omega), Nat.and_two_pow_sub_one_eq_mod]

/-- The accumulation loop is a sum modulo 2^16. -/
theorem accumulate_eq_sum (f : Nat → Elem) (e : Elem) (n : Nat) :
    accumulate f e n = e + ∑ k ∈ Finset.range n, f k := by
  induction n with
  | zero => simp [accumulate]
  | succ n ih => rw [accumulate, ih, Finset.sum_range_succ, add16, add_assoc]

/-- A little-endian value fits its bytes. -/
theorem memRead_lt (m : Memory) (a n : Nat) : memRead m a n < 2 ^ (8 * n) := by
  induction n generalizing a with
  | zero => simp [memRead]
  | succ n ih =>
    have h1 := ih (a + 1)
    have h2 := (byteAt m a).isLt
    rw [memRead, Nat.mul_succ, pow_add]
    omega

/-- Writing back a value read at `a` stores the bytes it was read from. -/
theorem bytesLE_memRead (m : Memory) (a n : Nat) : bytesLE (memRead m a n) n = bytesAt m a n := by
  induction n generalizing a with
  | zero => rfl
  | succ n ih =>
    have h := (byteAt m a).isLt
    rw [memRead, bytesLE, bytesAt, List.range_succ_eq_map, List.map_cons, List.map_map]
    congr 1
    · apply BitVec.eq_of_toNat_eq; simp; exact h
    · rw [show ((byteAt m a).toNat + 2 ^ 8 * memRead m (a + 1) n) / 2 ^ 8 = memRead m (a + 1) n by omega, ih, bytesAt]
      apply List.map_congr_left
      intro i _; simp; congr 1; omega

theorem fieldOf_lt (p : Params) (w j : Nat) : fieldOf p w j < 2 ^ p.eb := Nat.mod_lt _ (by positivity)

theorem roundElem_lt (p : Params) (v : Elem) : roundElem p v < 2 ^ p.eb := Nat.mod_lt _ (by positivity)

/-- Packing fields that fit is a sum of shifted fields, and it fits. -/
theorem packFields_eq_sum (p : Params) (f : Nat → Nat) (hf : ∀ j, f j < 2 ^ p.eb) (n : Nat) :
    packFields p f n < 2 ^ (p.eb * n) ∧ packFields p f n = ∑ j ∈ Finset.range n, f j * 2 ^ (p.eb * j) := by
  induction n with
  | zero => simp [packFields]
  | succ n ih =>
    have e : packFields p f (n + 1) = packFields p f n + f n * 2 ^ (p.eb * n) := by
      rw [packFields, Nat.shiftLeft_eq, Nat.lor_comm, mul_comm, ← Nat.two_pow_add_eq_or_of_lt ih.1, add_comm]
    constructor
    · have h1 := Nat.mul_le_mul_right (2 ^ (p.eb * n)) (Nat.succ_le_of_lt (hf n))
      have h2 := ih.1
      rw [Nat.succ_mul] at h1
      rw [e, Nat.mul_succ, pow_add, mul_comm (2 ^ (p.eb * n))]
      omega
    · rw [e, ih.2, Finset.sum_range_succ]

/-- Packing the fields of a word gives its low bits back. -/
theorem packFields_fieldOf (p : Params) (w n : Nat) : packFields p (fieldOf p w) n = w % 2 ^ (p.eb * n) := by
  rw [(packFields_eq_sum p (fieldOf p w) (fieldOf_lt p w) n).2]
  induction n with
  | zero => simp [Nat.mod_one]
  | succ n ih =>
    rw [Finset.sum_range_succ, ih, Nat.mul_succ, pow_add, Nat.mod_mul, fieldOf, Nat.shiftRight_eq_div_pow,
      mul_comm (_ % _)]

end Sys2Proof.Machine
end

