-- ==== Sys2Proof/Laws/Decode.lean ====
section
/-! SUPPORT. The fields of an encoded header, and the bytes of a word. -/

namespace Sys2Proof

theorem header_toNat (o : Op) (m : Bool) (idx : Nat) (h : idx < 2 ^ 16) :
    (header o m idx).toNat = o.code + 2 ^ 8 * m.toNat + 2 ^ 16 * idx := by
  unfold header
  rw [BitVec.toNat_ofNat, Nat.mod_eq_of_lt]
  cases o <;> cases m <;> simp only [Op.code, Bool.toNat] <;> norm_num <;> omega

theorem code_lt (o : Op) : o.code < 2 ^ 8 := by cases o <;> decide

theorem opcField_header (o : Op) (m : Bool) (idx : Nat) (h : idx < 2 ^ 16) : opcField (header o m idx) = o.code := by
  have := code_lt o
  unfold opcField; rw [header_toNat o m idx h]; omega

theorem mField_header (o : Op) (m : Bool) (idx : Nat) (h : idx < 2 ^ 16) : mField (header o m idx) = m := by
  have := code_lt o
  unfold mField; rw [header_toNat o m idx h]
  cases m <;> simp only [Bool.toNat, cond_true, cond_false, beq_iff_eq, beq_eq_false_iff_ne] <;> omega

theorem rsvField_header (o : Op) (m : Bool) (idx : Nat) (h : idx < 2 ^ 16) : rsvField (header o m idx) = 0 := by
  have := code_lt o
  unfold rsvField; rw [header_toNat o m idx h]
  cases m <;> simp only [Bool.toNat, cond_true, cond_false] <;> omega

theorem idxField_header (o : Op) (m : Bool) (idx : Nat) (h : idx < 2 ^ 16) : idxField (header o m idx) = idx := by
  have := code_lt o
  unfold idxField; rw [header_toNat o m idx h]
  cases m <;> simp only [Bool.toNat, cond_true, cond_false] <;> omega

@[simp] theorem ofCode?_code (o : Op) : Op.ofCode? o.code = some o := by cases o <;> rfl

/-- `ofCode?` finds only the row with that code. -/
theorem ofCode?_some {c : Nat} {o : Op} (h : Op.ofCode? c = some o) : o.code = c := by
  unfold Op.ofCode? at h
  simpa using List.find?_some h

theorem slotWord_toNat {a : Nat} (h : fitsSlot a = true) : (slotWord a).toNat = a := by
  unfold fitsSlot at h
  unfold slotWord
  rw [BitVec.toNat_ofNat, Nat.mod_eq_of_lt (of_decide_eq_true h)]

theorem length_bytesOfWord (w : Word) : (bytesOfWord w).length = 4 := rfl

/-- A word's bytes put together again are the word. -/
theorem wordOfBytes_bytesOfWord (w : Word) :
    wordOfBytes (BitVec.ofNat 8 w.toNat) (BitVec.ofNat 8 (w.toNat / 2 ^ 8)) (BitVec.ofNat 8 (w.toNat / 2 ^ 16))
      (BitVec.ofNat 8 (w.toNat / 2 ^ 24)) = w := by
  apply BitVec.eq_of_toNat_eq
  have := w.isLt
  unfold wordOfBytes
  simp only [BitVec.toNat_ofNat]
  omega

/-- A descriptor's bytes read back as the descriptor, with whatever stands after them left over. -/
theorem descriptorOfBytes_descriptorBytes (d : Descriptor) (rest : List Byte) :
    descriptorOfBytes (descriptorBytes d ++ rest) = some (d, rest) := by
  unfold descriptorBytes bytesOfWord
  simp only [List.cons_append, List.nil_append, descriptorOfBytes, wordOfBytes_bytesOfWord]

end Sys2Proof
end

