-- ==== Sys2Proof/Laws/Host.lean ====
section
/-! SUPPORT. What the host's operations can do: the word STATUS reads as, a host read of the SPM, soft
reset; and what a step of the machine can do. -/

namespace Sys2Proof.Machine

/-- STATUS as a number (10_state.md R30). -/
theorem statusWord_toNat (s : State) :
    (statusWord s).toNat
      = s.busy.toNat + 2 * s.done.toNat + 4 * s.err.toNat + 8 * (cfgErr s).toNat + 2 ^ 8 * s.errcode.toNat := by
  unfold statusWord
  have h0 := s.errcode.isLt
  have h1 := Bool.toNat_lt s.busy
  have h2 := Bool.toNat_lt s.done
  have h3 := Bool.toNat_lt s.err
  have h4 := Bool.toNat_lt (cfgErr s)
  rw [BitVec.toNat_ofNat, Nat.mod_eq_of_lt (by omega)]

/-- A host read of written bytes takes no draw. -/
theorem hostRead_of_allWritten {m : Memory} {k a n : Nat} (h : AllWritten m a n) :
    hostRead m k a n = (memRead m a n, k) := by
  induction n generalizing a with
  | zero => rfl
  | succ n ih =>
    obtain ⟨b, hb⟩ := h a le_rfl (by omega)
    simp only [hostRead, memRead, hostByte, hb, byteAt, Option.getD_some]
    rw [ih fun x h1 h2 => h x (by omega) (by omega)]

/-- A host read takes one draw for each unwritten byte. -/
theorem hostRead_draws (m : Memory) (k a n : Nat) :
    (hostRead m k a n).2 = k + ((List.range n).filter fun i => decide (readByte m (a + i) = none)).length := by
  induction n generalizing k a with
  | zero => rfl
  | succ n ih =>
    have h : ((fun i => decide (readByte m (a + i) = none)) ∘ Nat.succ)
        = fun i => decide (readByte m (a + 1 + i) = none) := by
      funext i; simp only [Function.comp]; congr 3; omega
    rw [List.range_succ_eq_map, List.filter_cons, List.filter_map, hostRead, h]
    simp only [ih]
    cases hr : readByte m a with
    | none => simp [hostByte, hr]; omega
    | some b => simp [hostByte, hr]

/-- Forgetting no byte changes nothing. -/
theorem forget_zero (m : Memory) (a : Nat) : forget m a 0 = m := by
  unfold forget
  apply List.filter_eq_self.2
  intro c _
  by_cases h : c.1 < a <;> simp [h]
  omega

/-- An abort takes bytes from the SPM and gives none. -/
theorem abortedMemory_le (s : State) :
    (Memory.wf s.mem = true → Memory.wf (abortedMemory s) = true)
      ∧ ∀ x b, readByte (abortedMemory s) x = some b → readByte s.mem x = some b := by
  unfold abortedMemory
  cases fetchFault s with
  | some c => exact ⟨fun h => h, fun _ _ h => h⟩
  | none =>
    cases fetchWords s.mem s.cmdptr.toNat with
    | none => exact ⟨fun _ => rfl, fun _ _ h => by cases h⟩
    | some d =>
      refine ⟨fun h => wf_forget h _ _, fun x b h => ?_⟩
      simp only at h
      rw [readByte_forget] at h
      split at h
      · cases h
      · exact h

/-- Everything a soft reset can do: the registers reset, and the SPM loses bytes and gains none. -/
theorem softReset_eq (s : State) :
    ∃ m, softReset s = resetRegisters { s with mem := m } ∧ (Memory.wf s.mem = true → Memory.wf m = true)
      ∧ ∀ x b, readByte m x = some b → readByte s.mem x = some b := by
  unfold softReset
  split
  · exact ⟨_, rfl, abortedMemory_le s⟩
  · exact ⟨s.mem, rfl, fun h => h, fun _ _ h => h⟩

/-- A step in a valid configuration with nothing scheduled is the sequencer's. -/
theorem step_of_inbox_nil {s : State} (hv : s.cfg.valid = true) (hi : s.inbox = []) : step s = sequencerStep s := by
  simp [step, machineStep, hi, admittedTurn, takeTurn, cfgErr, hv]

/-- A step in a valid configuration is the oldest turn scheduled. -/
theorem step_of_inbox_cons {s : State} {u : Turn} {rest : List Turn} (hv : s.cfg.valid = true) (hi : s.inbox = u :: rest) :
    step s = takeTurn u { s with inbox := rest } := by
  simp [step, machineStep, hi, admittedTurn, cfgErr, hv]

/-- A step in an invalid configuration is refused. -/
theorem step_of_invalid {s : State} (hv : s.cfg.valid = false) : step s = .refused .invalidConfig := by
  cases hi : s.inbox <;> simp [step, machineStep, hi, admittedTurn, cfgErr, hv]

/-- Everything a step of the machine can do when it answers a next state: in a valid configuration, the sequencer's turn, or the
oldest turn of the inbox. -/
theorem step_next {s t : State} (h : step s = .next t) :
    s.cfg.valid = true ∧
      ((s.inbox = [] ∧ sequencerStep s = .next t)
        ∨ ∃ u rest, s.inbox = u :: rest ∧ takeTurn u { s with inbox := rest } = .next t) := by
  cases hv : s.cfg.valid with
  | false => rw [step_of_invalid hv] at h; cases h
  | true =>
    refine ⟨rfl, ?_⟩
    cases hi : s.inbox with
    | nil => rw [step_of_inbox_nil hv hi] at h; exact .inl ⟨rfl, h⟩
    | cons u rest => rw [step_of_inbox_cons hv hi] at h; exact .inr ⟨u, rest, rfl, h⟩

end Sys2Proof.Machine
end

