-- ==== Sys2Proof/Laws/PerInstr.lean ====
section
/-! SUPPORT. The family Encoding: the descriptor of a well-formed command passes both decoding checks of
46_sequencer_control.md R202 (a listed opcode, reserved fields 0), one lemma per constructor. -/

namespace Sys2Proof.Laws.Encoding

/-- The encoded descriptor has a listed opcode and meets R85's field requirements. -/
def Statement (i : Instr) : Prop :=
  i.wellFormed = true → ∃ o, Op.ofCode? (opcField (encode i).w0) = some o ∧ reservedOk o (encode i) = true

/-- A header with the fields its row uses passes both checks when the unused words are 0. -/
theorem passes (o : Op) (m : Bool) (idx : Nat) (w1 w2 w3 w4 : Word) (hi : idx < 2 ^ 16) (hm : m = true → o.usesM = true)
    (hx : idx ≠ 0 → o.usesIdx = true) (h1 : o.slotCount = 0 → w1 = 0) (h2 : o.slotCount ≤ 1 → w2 = 0)
    (h3 : o.slotCount ≤ 2 → w3 = 0) (h4 : o.slotCount ≤ 3 → w4 = 0) :
    ∃ o', Op.ofCode? (opcField (header o m idx)) = some o' ∧ reservedOk o' ⟨header o m idx, w1, w2, w3, w4⟩ = true := by
  refine ⟨o, by rw [opcField_header o m idx hi, ofCode?_code], ?_⟩
  simp only [reservedOk, rsvField_header o m idx hi, mField_header o m idx hi, idxField_header o m idx hi,
    Bool.and_eq_true, Bool.or_eq_true, Bool.not_eq_true', beq_iff_eq, decide_eq_true_eq]
  refine ⟨⟨⟨⟨⟨⟨trivial, ?_⟩, ?_⟩, ?_⟩, ?_⟩, ?_⟩, ?_⟩
  · cases m <;> simp_all
  · by_cases h : idx = 0 <;> simp_all
  · by_cases h : 0 < o.slotCount
    · exact .inl h
    · exact .inr (h1 (by omega))
  · by_cases h : 1 < o.slotCount
    · exact .inl h
    · exact .inr (h2 (by omega))
  · by_cases h : 2 < o.slotCount
    · exact .inl h
    · exact .inr (h3 (by omega))
  · by_cases h : 3 < o.slotCount
    · exact .inl h
    · exact .inr (h4 (by omega))

theorem halt : Statement .halt := fun _ => by apply passes <;> simp [Op.slotCount]
theorem nop : Statement .nop := fun _ => by apply passes <;> simp [Op.slotCount]
theorem radd (c a b : Nat) : Statement (.radd c a b) := fun _ => by apply passes <;> simp [Op.slotCount]
theorem rsub (c a b : Nat) : Statement (.rsub c a b) := fun _ => by apply passes <;> simp [Op.slotCount]
theorem genrow (r out seed : Nat) : Statement (.genrow r out seed) := fun h => by
  have hr : r < 2 ^ 16 := by simp only [Instr.wellFormed, fitsIndex, Bool.and_eq_true, decide_eq_true_eq] at h; omega
  apply passes <;> simp [Op.slotCount, Op.usesIdx]; omega
theorem genblk (kk out seed : Nat) : Statement (.genblk kk out seed) := fun h => by
  have hk : kk < 2 ^ 16 := by simp only [Instr.wellFormed, fitsIndex, Bool.and_eq_true, decide_eq_true_eq] at h; omega
  apply passes <;> simp [Op.slotCount, Op.usesIdx]; omega
theorem macr (m : Bool) (out secret seed : Nat) : Statement (.macr m out secret seed) := fun _ => by
  apply passes <;> simp [Op.slotCount, Op.usesM]
theorem macl (m : Bool) (out secret seed : Nat) : Statement (.macl m out secret seed) := fun _ => by
  apply passes <;> simp [Op.slotCount, Op.usesM]
theorem dmulr (out b sm : Nat) : Statement (.dmulr out b sm) := fun _ => by apply passes <;> simp [Op.slotCount]
theorem dmaddl (out b sm e : Nat) : Statement (.dmaddl out b sm e) := fun _ => by apply passes <;> simp [Op.slotCount]
theorem enc (out key : Nat) : Statement (.enc out key) := fun _ => by apply passes <;> simp [Op.slotCount]
theorem dec (key mat : Nat) : Statement (.dec key mat) := fun _ => by apply passes <;> simp [Op.slotCount]

end Sys2Proof.Laws.Encoding
end

