-- ==== Sys2Proof/Tests/Slice0.lean ====
section
/-! SUPPORT. Tests whose expected results are the spec's own (30_encoding.md R89 and 95_test_vectors.md), and for every obligation with
hypotheses a concrete state and operands that meet them, clause by clause. -/

namespace Sys2Proof.Tests

-- One kernel evaluation at a time: the tests' evaluations waiting on threads of their own would exhaust them.
set_option Elab.async false

open Sys2Proof.Machine

/-! ### Small states -/

/-- TC1 of 95_test_vectors.md. -/
def tc1 : Params := ⟨8, 4, 15, 2, 16, 4096, 0x10000, 0x20000⟩

/-- TC2 of 95_test_vectors.md. -/
def tc2 : Params := ⟨8, 4, 16, 4, 16, 4096, 0x10000, 0x20000⟩

/-- TC4 of 95_test_vectors.md. -/
def tc4 : Params := ⟨8, 4, 10, 3, 16, 4096, 0x10000, 0x20000⟩

/-- A small valid configuration for the witnesses: a 32-byte matrix of each shape, an 8-byte row, 4-byte seeds and keys. -/
def tiny : Params := ⟨4, 4, 15, 2, 4, 512, 0x10000, 0x20000⟩

/-- `n` zero bytes from address `a` on. -/
def zeros (a n : Nat) : Memory := (List.range n).map fun k => (a + k, 0)

/-- The ring elements `xs` at address `a`. -/
def put (a : Nat) (xs : List Elem) (m : Memory) : Memory :=
  writeBytes m a (elemBytes xs.length fun k => xs.getD k 0)

/-- `n` ring elements from address `a` on. -/
def elems (m : Memory) (a n : Nat) : List Elem := (List.range n).map fun k => elemAt m (a + 2 * k)

/-- An idle block with this SPM. -/
def idle (p : Params) (m : Memory) : State := { State.resetOf p with mem := m }

/-- A running block with this SPM and CMDPTR. -/
def running (p : Params) (m : Memory) (at' : Word) : State := { idle p m with busy := true, cmdptr := at' }

/-- What `f` sees of the next state, if there is one. -/
def after {α : Type} (f : State → α) : Out → Option α
  | .next t => some (f t)
  | _ => none

/-- The fault a step ended in. -/
def faultOf : Out → Option Fault
  | .fault e => some e
  | _ => none

/-- The refusal a step ended in. -/
def refusalOf : Out → Option Refusal
  | .refused e => some e
  | _ => none

/-- STATUS, CMDPTR and CMDCOUNT as the host reads them. -/
def report (s : State) : Word × Word × Word := (readRegister 0x10 s, readRegister 0x14 s, readRegister 0x18 s)

/-- The test stub XOF of 95_test_vectors.md section 0. -/
def stub : Xof := fun tag seed _ i => BitVec.ofNat 8 ((seed.headD 0).toNat + 7 * (tag.toNat % 256) + 13 * i)

/-- seed0 of V-GEN-1: bytes 00 to 0F. -/
def seed0 : List Byte := (List.range 16).map (BitVec.ofNat 8)

/-! ### WellFormed: every field that does not fit is refused -/

theorem test_wf_radd_slots : (Instr.radd (2 ^ 32) 0 0).wellFormed = false ∧ (Instr.radd 0 (2 ^ 32) 0).wellFormed = false
    ∧ (Instr.radd 0 0 (2 ^ 32)).wellFormed = false ∧ (Instr.radd (2 ^ 32 - 1) (2 ^ 32 - 1) (2 ^ 32 - 1)).wellFormed := by decide

theorem test_wf_rsub_slots : (Instr.rsub (2 ^ 32) 0 0).wellFormed = false ∧ (Instr.rsub 0 (2 ^ 32) 0).wellFormed = false
    ∧ (Instr.rsub 0 0 (2 ^ 32)).wellFormed = false := by decide

theorem test_wf_genrow_fields : (Instr.genrow (2 ^ 16) 0 0).wellFormed = false ∧ (Instr.genrow 0 (2 ^ 32) 0).wellFormed = false
    ∧ (Instr.genrow 0 0 (2 ^ 32)).wellFormed = false ∧ (Instr.genrow (2 ^ 16 - 1) 0 0).wellFormed := by decide

theorem test_wf_genblk_fields : (Instr.genblk (2 ^ 16) 0 0).wellFormed = false ∧ (Instr.genblk 0 (2 ^ 32) 0).wellFormed = false
    ∧ (Instr.genblk 0 0 (2 ^ 32)).wellFormed = false := by decide

theorem test_wf_macr_slots : (Instr.macr true (2 ^ 32) 0 0).wellFormed = false ∧ (Instr.macr true 0 (2 ^ 32) 0).wellFormed = false
    ∧ (Instr.macr false 0 0 (2 ^ 32)).wellFormed = false := by decide

theorem test_wf_macl_slots : (Instr.macl true (2 ^ 32) 0 0).wellFormed = false ∧ (Instr.macl true 0 (2 ^ 32) 0).wellFormed = false
    ∧ (Instr.macl false 0 0 (2 ^ 32)).wellFormed = false := by decide

theorem test_wf_dmulr_slots : (Instr.dmulr (2 ^ 32) 0 0).wellFormed = false ∧ (Instr.dmulr 0 (2 ^ 32) 0).wellFormed = false
    ∧ (Instr.dmulr 0 0 (2 ^ 32)).wellFormed = false := by decide

theorem test_wf_dmaddl_slots : (Instr.dmaddl (2 ^ 32) 0 0 0).wellFormed = false ∧ (Instr.dmaddl 0 (2 ^ 32) 0 0).wellFormed = false
    ∧ (Instr.dmaddl 0 0 (2 ^ 32) 0).wellFormed = false ∧ (Instr.dmaddl 0 0 0 (2 ^ 32)).wellFormed = false := by decide

theorem test_wf_enc_slots : (Instr.enc (2 ^ 32) 0).wellFormed = false ∧ (Instr.enc 0 (2 ^ 32)).wellFormed = false := by decide

theorem test_wf_dec_slots : (Instr.dec (2 ^ 32) 0).wellFormed = false ∧ (Instr.dec 0 (2 ^ 32)).wellFormed = false := by decide

/-! ### Decoding: words written out from the spec's encodings -/

/-- R89, HALT; the byte after the descriptor is left over. -/
theorem test_decode_halt : decodeBytes [0, 0, 0, 0, 0, 0, 0, 0, 0, 0, 0, 0, 0, 0, 0, 0, 0, 0, 0, 0, 0xAA] = .ok (.halt, [0xAA]) := by decide

/-- Program P5, 0x0000. -/
theorem test_decode_nop : decodeBytes [0x01, 0, 0, 0, 0, 0, 0, 0, 0, 0, 0, 0, 0, 0, 0, 0, 0, 0, 0, 0] = .ok (.nop, []) := by decide

/-- R89, RADD. -/
theorem test_decode_radd :
    decodeBytes [0x10, 0, 0, 0, 0x00, 0x01, 0, 0, 0x00, 0x02, 0, 0, 0x00, 0x03, 0, 0, 0, 0, 0, 0] = .ok (.radd 0x100 0x200 0x300, []) := by decide

/-- Program P1, 0x0014. -/
theorem test_decode_rsub :
    decodeBytes [0x11, 0, 0, 0, 0x60, 0x01, 0, 0, 0x40, 0x01, 0, 0, 0x20, 0x01, 0, 0, 0, 0, 0, 0] = .ok (.rsub 0x160 0x140 0x120, []) := by decide

/-- Program P7, 0x0014. -/
theorem test_decode_genrow :
    decodeBytes [0x20, 0, 0x07, 0, 0x20, 0x04, 0, 0, 0x01, 0x03, 0, 0, 0, 0, 0, 0, 0, 0, 0, 0] = .ok (.genrow 7 0x420 0x301, []) := by decide

/-- Program P7, 0x0028. -/
theorem test_decode_genblk :
    decodeBytes [0x21, 0, 0x04, 0, 0x40, 0x04, 0, 0, 0x00, 0x02, 0, 0, 0, 0, 0, 0, 0, 0, 0, 0] = .ok (.genblk 4 0x440 0x200, []) := by decide

/-- 43_matrix_accumulator.md R143, W0 = 0x00000030 | (M << 8), with the operands of V-MAC-2. -/
theorem test_decode_macr :
    decodeBytes [0x30, 0, 0, 0, 0x00, 0x04, 0, 0, 0x00, 0x05, 0, 0, 0x00, 0x02, 0, 0, 0, 0, 0, 0] = .ok (.macr false 0x400 0x500 0x200, [])
    ∧ decodeBytes [0x30, 0x01, 0, 0, 0x00, 0x04, 0, 0, 0x00, 0x05, 0, 0, 0x00, 0x02, 0, 0, 0, 0, 0, 0]
        = .ok (.macr true 0x400 0x500 0x200, []) := by decide

/-- Program P3, 0x0000, and R89, MACL.Q. -/
theorem test_decode_macl :
    decodeBytes [0x31, 0, 0, 0, 0x00, 0x05, 0, 0, 0x00, 0x04, 0, 0, 0x00, 0x02, 0, 0, 0, 0, 0, 0] = .ok (.macl false 0x500 0x400 0x200, [])
    ∧ decodeBytes [0x31, 0x01, 0, 0, 0x00, 0x10, 0, 0, 0x00, 0x20, 0, 0, 0x40, 0, 0, 0, 0, 0, 0, 0]
        = .ok (.macl true 0x1000 0x2000 0x40, []) := by decide

/-- Program P3, 0x0014. -/
theorem test_decode_dmulr :
    decodeBytes [0x40, 0, 0, 0, 0x00, 0x06, 0, 0, 0x00, 0x05, 0, 0, 0x00, 0x07, 0, 0, 0, 0, 0, 0] = .ok (.dmulr 0x600 0x500 0x700, []) := by decide

/-- R89, DMADDL. -/
theorem test_decode_dmaddl :
    decodeBytes [0x41, 0, 0, 0, 0x60, 0, 0, 0, 0x80, 0, 0, 0, 0xA0, 0, 0, 0, 0x60, 0, 0, 0] = .ok (.dmaddl 0x60 0x80 0xA0 0x60, []) := by decide

/-- Program P2, 0x0000. -/
theorem test_decode_enc :
    decodeBytes [0x50, 0, 0, 0, 0x00, 0x03, 0, 0, 0x00, 0x02, 0, 0, 0, 0, 0, 0, 0, 0, 0, 0] = .ok (.enc 0x300 0x200, []) := by decide

/-- R89, DEC. -/
theorem test_decode_dec :
    decodeBytes [0x51, 0, 0, 0, 0x10, 0, 0, 0, 0x20, 0, 0, 0, 0, 0, 0, 0, 0, 0, 0, 0] = .ok (.dec 0x10 0x20, []) := by decide

/-- Nineteen bytes are no command. -/
theorem test_decode_truncated : decodeBytes (List.replicate 19 0) = .error .truncated := by decide

/-- V-FLT-4 and V-FLT-4b: OPC 0x02 and 0xFF are reserved, and come before the reserved fields. -/
theorem test_decode_illegal : decode ⟨0x00000002, 0, 0, 0, 0⟩ = .error .illegalOpcode
    ∧ decode ⟨0x0000FFFF, 0, 0, 0, 0⟩ = .error .illegalOpcode := by decide

/-- V-FLT-5, 5b, 5c, 5d, 5e, V-ALU-5, V-MAC-7 and V-COD-8: each field requirement of R85. -/
theorem test_decode_reserved :
    decode ⟨0, 1, 0, 0, 0⟩ = .error .reservedNonzero ∧ decode ⟨0x00000100, 0, 0, 0, 0⟩ = .error .reservedNonzero
    ∧ decode ⟨0x00010001, 0, 0, 0, 0⟩ = .error .reservedNonzero
    ∧ decode ⟨0x00000210, 0x100, 0x120, 0x140, 0⟩ = .error .reservedNonzero
    ∧ decode ⟨0x00000010, 0x100, 0x120, 0x140, 4⟩ = .error .reservedNonzero
    ∧ decode ⟨0x00000110, 0x100, 0x100, 0x100, 0⟩ = .error .reservedNonzero
    ∧ decode ⟨0x00010030, 0x400, 0x500, 0x200, 0⟩ = .error .reservedNonzero
    ∧ decode ⟨0x50, 0x400, 0x200, 0x300, 0⟩ = .error .reservedNonzero := by decide

/-- The host's entry to the decoder: a 32-bit row word with operand words of zeros, and a whole descriptor. -/
theorem test_decode_table_word : decodeTableWord 32 0x00050020 = some (.genrow 5 0 0) ∧ decodeTableWord 32 0x02 = none
    ∧ decodeTableWord 160 (0x51 + 0x10 * 2 ^ 32 + 0x20 * 2 ^ 64) = some (.dec 0x10 0x20) := by decide

/-! ### The step, from reset -/

/-- A loaded NOP runs as the first instruction after reset (V-SEQ-2's first command). -/
theorem test_step_nop_after_reset :
    after report (step (State.reset.withFetchWord 32 0x01)) = some (0x00000001, 0x14, 1) := by decide +kernel

/-- V-SEQ-1. -/
theorem test_step_halt_after_reset :
    after report (step (State.reset.withFetchWord 32 0x00)) = some (0x00000002, 0, 0) := by decide +kernel

/-- V-SEQ-3: a HALT whose 20 bytes end at MEM_BYTES. -/
theorem test_step_halt_at_the_end :
    after report (step (running tc1 (zeros 0xFEC 20) 0xFEC)) = some (0x00000002, 0xFEC, 0) := by decide +kernel

/-- P6: RSUB over the rest of its own list; the next descriptor is then a HALT. -/
theorem test_step_self_modifying :
    after (fun t => (report t, fetchWords t.mem 0x14))
        (step (running tc1 (writeBytes (zeros 0x100 32) 0
          [0x11, 0, 0, 0, 0x14, 0, 0, 0, 0x00, 0x01, 0, 0, 0x00, 0x01, 0, 0, 0, 0, 0, 0, 0x01]) 0))
      = some ((0x00000001, 0x14, 1), some ⟨0, 0, 0, 0, 0⟩) := by decide +kernel

/-! ### One fault per code: STATUS, CMDPTR, CMDCOUNT (95_test_vectors.md section 8) -/

/-- V-FLT-1: TC1 with N = 6, with EB = 0 and with NBAR = 2, a START through the bus. -/
theorem test_fault_cfg_invalid :
    after report (hostAccess (.write 0x1000C 4 1) (State.resetOf { tc1 with n := 6 })) = some (0x10C, 0, 0)
    ∧ after report (hostAccess (.write 0x1000C 4 1) (State.resetOf { tc1 with eb := 0 })) = some (0x10C, 0, 0)
    ∧ after report (hostAccess (.write 0x1000C 4 1) (State.resetOf { tc1 with nbar := 2 })) = some (0x10C, 0, 0)
    ∧ readRegister 0x00 (State.resetOf { tc1 with n := 6 }) = 0x0F040006 := by decide +kernel

/-- I6 and R245: a launch in the invalid configuration of V-FLT-1 is refused, host access or not. -/
theorem test_step_refuses_invalid :
    refusalOf (step (State.resetOf { tc1 with n := 6 })) = some .invalidConfig
    ∧ refusalOf (step { State.resetOf { tc1 with n := 6 } with inbox := [.access (.write 0x1000C 4 1)] }) = some .invalidConfig := by
  decide

/-- A START through the bus and a hard reset, scheduled: each is the step of its turn. -/
theorem test_step_scheduled_turns :
    after (fun t => (t.busy, t.inbox)) (step { idle tc1 [] with inbox := [.access (.write 0x1000C 4 1), .hardReset] })
      = some (true, [.hardReset])
    ∧ after (fun t => (t.busy, t.mem)) (step { running tc1 [(0, 0)] 4 with inbox := [.hardReset] }) = some (false, []) := by decide

/-- V-FLT-2 and V-FLT-3. -/
theorem test_fault_fetch :
    after report (step (running tc1 [] 0x0002)) = some (0x204, 0x0002, 0)
    ∧ after report (step (running tc1 [] 0x0FF0)) = some (0x304, 0x0FF0, 0) := by decide +kernel

/-- V-FLT-4b and V-FLT-5d. -/
theorem test_fault_decode :
    after report (step (running tc1 (writeBytes [] 0 (descriptorBytes ⟨0x0000FFFF, 0, 0, 0, 0⟩)) 0)) = some (0x404, 0, 0)
    ∧ after report (step (running tc1 (writeBytes [] 0 (descriptorBytes ⟨0x210, 0x100, 0x120, 0x140, 0⟩)) 0)) = some (0x504, 0, 0) := by
  decide +kernel

/-- V-GEN-5, the GENROW rows: the index before the alignment, then range and overlap, each at its edge. -/
theorem test_fault_genrow :
    ([(8, 0x400, 0x200), (8, 0x401, 0x200), (0, 0x401, 0x200), (0, 0xFF2, 0x200), (0, 0x400, 0xFF1), (0, 0x1F8, 0x200)].map
        fun x => after (readRegister 0x10) (exec (.genrow x.1 x.2.1 x.2.2) (running tc1 (zeros 0x200 16) 0)))
      = [some 0x604, some 0x604, some 0x704, some 0x804, some 0x804, some 0x904] := by decide +kernel

/-- V-GEN-5, the GENBLK rows. -/
theorem test_fault_genblk :
    ([2, 3, 8].map fun kk => after (readRegister 0x10) (exec (.genblk kk 0x400 0x200) (running tc1 (zeros 0x200 16) 0)))
      = [some 0x604, some 0x604, some 0x604] := by decide +kernel

/-- V-ALU-4, V-MAC-7, V-DEN-7 and V-COD-8, the faulting rows with operands of each shape. -/
theorem test_fault_operands :
    ([.radd 0x102 0x100 0x120, .macr false 0x400 0x400 0x200, .dmaddl 0x602 0x400 0x500 0x600, .dmulr 0x500 0x400 0x500,
        .dmulr 0xFFF 0x400 0x500, .dmulr 0x400 0x402 0xFF0, .dmaddl 0x400 0x500 0x600 0xFE2, .dec 0x200 0x401,
        .enc 0x200 0x21E, .dec 0x100 0x100].map fun i => after (readRegister 0x10) (exec i (running tc1 [] 0)))
      = [some 0x904, some 0x904, some 0x904, some 0x904, some 0x704, some 0x804, some 0x804, some 0x704, some 0x904,
        some 0x904] := by decide +kernel

/-- V-MAC-7: MACR reads its unwritten A0. -/
theorem test_unwritten_macr :
    faultOf (exec (.macr false 0x400 0x500 0x200) (running tc1 (zeros 0x200 16 ++ zeros 0x500 64) 0)) = some .unwrittenRead := by
  decide +kernel

/-! ### Commands, on the spec's vectors -/

/-- The 'a' column of V-ALU-1. -/
def aluA : List Elem := [0x7FFF, 0xFFFF, 0x8000, 0x1234, 0x0000, 0x4000, 0x7FFF, 0x0001, 0x8001, 0x3FFF, 0x2AAA, 0xFFFE, 0x0001, 0x7000, 0x0FFF, 0xC000]

/-- The 'b' column of V-ALU-1. -/
def aluB : List Elem := [0x0001, 0xFFFF, 0x0000, 0x4321, 0x0001, 0x4000, 0x7FFF, 0x7FFF, 0x8001, 0x0001, 0x5556, 0x0002, 0x0002, 0x1000, 0xF001, 0x4000]

/-- V-ALU-1 and P1: the RADD column. -/
theorem test_radd_valu1 :
    after (fun t => elems t.mem 0x140 16) (exec (.radd 0x140 0x100 0x120) (running tc1 (put 0x120 aluB (put 0x100 aluA [])) 0))
      = some [0x0000, 0x7FFE, 0x0000, 0x5555, 0x0001, 0x0000, 0x7FFE, 0x0000, 0x0002, 0x4000, 0x0000, 0x0000, 0x0003, 0x0000, 0x0000, 0x0000] := by
  decide +kernel

/-- V-ALU-3: A0 = A1 = A2. -/
theorem test_radd_in_place :
    after (fun t => (elems t.mem 0x100 4, t.cmdptr, t.cmdcount))
        (exec (.radd 0x100 0x100 0x100) (running tc1 (put 0x100 [0x7FFF, 0xFFFF, 0x8000, 0x1234] (zeros 0x100 32)) 0))
      = some ([0x7FFE, 0x7FFE, 0x0000, 0x2468], 0x14, 1) := by decide +kernel

/-- V-ALU-1: the RSUB column. -/
theorem test_rsub_valu1 :
    after (fun t => elems t.mem 0x160 16) (exec (.rsub 0x160 0x100 0x120) (running tc1 (put 0x120 aluB (put 0x100 aluA [])) 0))
      = some [0x7FFE, 0x0000, 0x0000, 0x4F13, 0x7FFF, 0x0000, 0x0000, 0x0002, 0x0000, 0x3FFE, 0x5554, 0x7FFC, 0x7FFF, 0x6000, 0x1FFE, 0x0000] := by
  decide +kernel

/-- V-ALU-2: LOGQ = 16. -/
theorem test_rsub_valu2 :
    after (fun t => elems t.mem 0x160 4)
        (exec (.rsub 0x160 0x100 0x120) (running tc2 (put 0x120 aluB (put 0x100 aluA [])) 0))
      = some [0x7FFE, 0x0000, 0x8000, 0xCF13] := by decide +kernel

/-- V-GEN-1, row 0, and V-GEN-2, row 7, with the stub. -/
theorem test_genrow_rows :
    genrowBytes stub tc1 (writeBytes [] 0x200 seed0) 0 0x200
      = [0x00, 0x0D, 0x1A, 0x27, 0x34, 0x41, 0x4E, 0x5B, 0x68, 0x75, 0x82, 0x8F, 0x9C, 0xA9, 0xB6, 0xC3]
    ∧ (genrowBytes stub tc1 (writeBytes [] 0x301 (0x05 :: seed0.tail)) 7 0x301).take 4 = [0x36, 0x43, 0x50, 0x5D] := by
  decide +kernel

/-- V-GEN-5: the last row completes, and the seed may end at MEM_BYTES or be odd. -/
theorem test_genrow_edges :
    after report (exec (.genrow 7 0x400 0x200) (running tc1 (zeros 0x200 16) 0)) = some (0x01, 0x14, 1)
    ∧ after report (exec (.genrow 0 0xFE0 0xFF0) (running tc1 (zeros 0xFF0 16) 0)) = some (0x01, 0x14, 1)
    ∧ after report (exec (.genrow 0 0xFF0 0x301) (running tc1 (zeros 0x301 16) 0)) = some (0x01, 0x14, 1) := by decide +kernel

/-- V-GEN-3: GENBLK #4 writes rows r4 to r7; the first element of each. -/
theorem test_genblk_rows :
    [0, 16, 32, 48].map (fun k => ((genblkBytes stub tc1 (writeBytes [] 0x200 seed0) 4 0x200).drop k).take 2)
      = [[0x1C, 0x29], [0x23, 0x30], [0x2A, 0x37], [0x31, 0x3E]] := by decide +kernel

/-- The SPM of V-MAC-2: E1 at 0x400, S1 at 0x500, seed0 at 0x200. -/
def macrMem : Memory :=
  put 0x500 ((List.range 32).map fun k => BitVec.ofNat 16 ((k / 4 + 2 * (k % 4)) % 3 + 0xFFFF))
    (put 0x400 ((List.range 32).map fun k => BitVec.ofNat 16 k) (writeBytes [] 0x200 seed0))

/-- V-MAC-2, M = 0: elements of rows 0 and 7. -/
theorem test_macr_vmac2 :
    [0, 1, 28, 31].map (fun k => fin16 tc1 false (macrAcc stub tc1 macrMem 0x400 0x500 0x200 (k / 4) (k % 4)))
      = [0xBECC, 0xB1B3, 0x8DB7, 0x8DBA] := by decide +kernel

/-- V-MAC-2, M = 1: the bytes MACR.Q writes, the start of its first row and its last element. -/
theorem test_macr_q_vmac2 :
    (macrBytes stub tc1 macrMem true 0x400 0x500 0x200).take 4 = [0xCC, 0x3E, 0xB3, 0x31]
    ∧ (macrBytes stub tc1 macrMem true 0x400 0x500 0x200).drop 62 = [0xBA, 0x0D] := by decide +kernel

/-- The SPM of V-MAC-4: E2 at 0x500, S2 at 0x400, seed0 at 0x200. -/
def maclMem : Memory :=
  put 0x500 ((List.range 32).map fun k => BitVec.ofNat 16 (0x8000 + k))
    (put 0x400 ((List.range 32).map fun k => BitVec.ofNat 16 ((k / 8 + k % 8) % 3 + 0xFFFF)) (writeBytes [] 0x200 seed0))

/-- V-MAC-4, M = 0: elements of rows 0, 1 and 3. -/
theorem test_macl_vmac4 :
    [0, 7, 8, 31].map (fun k => fin16 tc1 false (maclAcc stub tc1 maclMem 0x500 0x400 0x200 (k / 8) (k % 8)))
      = [0x64F2, 0xAE43, 0xB02B, 0xAE5B] := by decide +kernel

/-- V-MAC-4, M = 1: the bytes MACL.Q writes, elements 4 and 5 of its first row and its last element. -/
theorem test_macl_q_vmac4 :
    ((maclBytes stub tc1 maclMem true 0x500 0x400 0x200).drop 8).take 4 = [0x8E, 0x7C, 0x75, 0x62]
    ∧ (maclBytes stub tc1 maclMem true 0x500 0x400 0x200).drop 62 = [0x5B, 0x2E] := by decide +kernel

/-- B of 95_test_vectors.md section 5. -/
def matB : List Elem := (List.range 32).map fun k => BitVec.ofNat 16 (k + 1)

/-- S of 95_test_vectors.md section 5. -/
def matS : List Elem := (List.range 32).map fun k => if k / 4 = k % 4 then 0xFFFF else BitVec.ofNat 16 ((k / 4 + k % 4) % 2)

/-- V-DEN-1: row 0 and the start of row 1. -/
theorem test_dmulr_vden1 :
    after (fun t => elems t.mem 0x600 5) (exec (.dmulr 0x600 0x400 0x500) (running tc1 (put 0x500 matS (put 0x400 matB [])) 0))
      = some [0x0013, 0x000E, 0x0011, 0x000C, 0x002B] := by
  decide +kernel

/-- V-DEN-4: row 0 and the start of row 1. -/
theorem test_dmaddl_vden4 :
    after (fun t => elems t.mem 0x700 5)
        (exec (.dmaddl 0x700 0x400 0x500 0x600)
          (running tc1 (put 0x600 ((List.range 16).map fun k => BitVec.ofNat 16 (0x7FF0 + k)) (put 0x500 matB (put 0x400 matS []))) 0))
      = some [0x0003, 0x7FFF, 0x0003, 0x7FFF, 0x001F] := by
  decide +kernel

/-- V-COD-2. -/
theorem test_enc_vcod2 :
    after (fun t => elems t.mem 0x400 16) (exec (.enc 0x400 0x200) (running tc1 (writeBytes [] 0x200 [0xE4, 0x1B, 0xFF, 0x00]) 0))
      = some [0x0000, 0x2000, 0x4000, 0x6000, 0x6000, 0x4000, 0x2000, 0x0000, 0x6000, 0x6000, 0x6000, 0x6000, 0, 0, 0, 0] := by
  decide +kernel

/-- V-COD-7: a field that crosses a byte. -/
theorem test_enc_vcod7 :
    after (fun t => elems t.mem 0x400 12)
        (exec (.enc 0x400 0x200) (running tc4 (writeBytes [] 0x200 [0x88, 0xC6, 0xFA, 0x77, 0x00, 0x00]) 0))
      = some [0x0000, 0x0080, 0x0100, 0x0180, 0x0200, 0x0280, 0x0300, 0x0380, 0x0380, 0x0300, 0x0080, 0x0000] := by decide +kernel

/-- V-COD-4: DEC of ENC plus HALF, and of ENC minus HALF − 1 − 1. -/
theorem test_dec_vcod4 :
    let x : List Elem := [0x0000, 0x2000, 0x4000, 0x6000, 0x6000, 0x4000, 0x2000, 0x0000, 0x6000, 0x6000, 0x6000, 0x6000, 0, 0, 0, 0]
    after (fun t => bytesAt t.mem 0x201 4) (exec (.dec 0x201 0x400) (running tc1 (put 0x400 (x.map (· + 0x1000)) []) 0))
      = some [0x39, 0x6C, 0x00, 0x55]
    ∧ after (fun t => bytesAt t.mem 0x201 4) (exec (.dec 0x201 0x400) (running tc1 (put 0x400 (x.map (· - 0x1001)) []) 0))
      = some [0x93, 0xC6, 0xAA, 0xFF] := by decide +kernel

/-- V-COD-3 under TC1, and V-COD-5 under TC2, where `v + HALF` passes 16 bits. -/
theorem test_dec_rounding :
    [0x0000, 0x0FFF, 0x1000, 0x2FFF, 0x3000, 0x5000, 0x6FFF, 0x7000, 0x7FFF, 0x8000, 0xA000, 0xF000, 0xFFFF].map (roundElem tc1)
      = [0, 0, 1, 1, 2, 3, 3, 0, 0, 0, 1, 0, 0]
    ∧ [0xF7FF, 0xF800, 0x07FF, 0x0800, 0xFFFF].map (roundElem tc2) = [0xF, 0, 0, 1, 0] := by decide +kernel

/-! ### The host -/

/-- V-SEQ-5. -/
theorem test_status_w1c :
    after (readRegister 0x10) (hostAccess (.write 0x10010 4 2) { idle tc1 [] with done := true }) = some 0
    ∧ after (readRegister 0x10) (hostAccess (.write 0x10010 4 4) { idle tc1 [] with err := true, errcode := 6 }) = some 0 := by
  decide +kernel

/-- V-SEQ-6. -/
theorem test_irq_at_halt :
    after irq (exec .halt { running tc1 [] 0 with ieDone := true }) = some true
    ∧ after irq (exec .halt { running tc1 [] 0 with ieErr := true }) = some false := by decide

/-- V-SEQ-7: START and SRST together only reset. -/
theorem test_srst_wins :
    after (fun t => (report t, readRegister 0x0C t)) (hostAccess (.write 0x1000C 4 3) { idle tc1 [] with done := true, cmdptr := 8, ieErr := true })
      = some ((0, 0, 0), 0) := by decide +kernel

/-- 20_memory.md R52: a 32-bit host read is two elements; and R61, R62: what stops. -/
theorem test_host_spm :
    after (·.hostData) (hostAccess (.read 0x20100 4) (idle tc1 (put 0x100 [0x1234, 0xABCD] []))) = some (some 0xABCD1234)
    ∧ faultOf (hostAccess (.read 0x20100 4) (running tc1 [] 0)) = some .hostBusyAccess
    ∧ refusalOf (hostAccess (.read 0x20102 4) (idle tc1 [])) = some .hostBusError
    ∧ refusalOf (hostAccess (.write 0x21000 1 0) (idle tc1 [])) = some .hostBusError
    ∧ refusalOf (hostAccess (.read 0x10010 2) (idle tc1 [])) = some .hostBusError := by decide +kernel

/-- 70_reset_and_hazards.md R271: an aborted ENC leaves its output unwritten and its key as it was. -/
theorem test_soft_reset_forgets :
    [0x1FF, 0x200, 0x21F, 0x220].map
        (readByte (softReset (running tc1 (writeBytes (zeros 0x1FF 0x22) 0 (encodeBytes (.enc 0x200 0x100))) 0)).mem)
      = [some 0, none, none, some 0] := by decide +kernel

/-! ### Witnesses: for each obligation with hypotheses, a state and operands that meet them -/

theorem allWritten_of {m : Memory} {a n : Nat} (h : written m a n = true) : AllWritten m a n := (written_iff _ _ _).1 h

theorem notWritten_of {m : Memory} {a n : Nat} (h : written m a n = false) : ¬AllWritten m a n := by
  rw [← written_iff, h]; decide

theorem operandsValid_of {p : Params} {i : Instr} {o : Operands} (h : validate p (indexOk p i) o = none) :
    OperandsValid p i o := (validate_iff_operandsValid p i o).1 h

theorem operandsInvalid_of {p : Params} {i : Instr} {o : Operands} (h : (validate p (indexOk p i) o).isSome = true) :
    ¬OperandsValid p i o := by
  rw [← validate_iff_operandsValid]; intro h'; rw [h'] at h; cases h

theorem inputsWritten_of {s : State} {o : Operands} (h : inputsWritten s.cfg s.mem o = true) : InputsWritten s o :=
  (inputsWritten_iff _ _ _).1 h

theorem fetches_of {s : State} {d : Descriptor}
    (h : s.busy = true ∧ s.cfg.valid = true ∧ s.cmdptr.toNat % 4 = 0 ∧ s.cmdptr.toNat + 20 ≤ s.cfg.memBytes
      ∧ fetchWords s.mem s.cmdptr.toNat = some d) : Fetches s d := by
  obtain ⟨hb, hv, h4, h20, hd⟩ := h
  unfold fetchWords at hd
  split at hd
  · next hw => cases hd; exact ⟨⟨hb, hv⟩, h4, h20, allWritten_of hw, rfl, rfl, rfl, rfl, rfl⟩
  · cases hd

/-- `tiny` with all of the SPM zero, running at address 0: the descriptor there is a HALT. -/
def full : State := running tiny (zeros 0 512) 0

/-- `full` with the descriptor `d` at 0. -/
def withDescriptor (d : Descriptor) : State := { full with mem := writeBytes full.mem 0 (descriptorBytes d) }

/-- LOGQ = 16 is the edge; and two elements that differ above LOGQ = 15 only. -/
theorem witness_ReductionCommutesWithTheRing :
    tc2.logq ≤ 16 ∧ tc1.logq ≤ 16 ∧ red tc1 0x8001 = red tc1 0x0001 ∧ (0x8001 : Elem) ≠ 0x0001 := by decide

/-- Operands at the ends of their fields. -/
theorem witness_DecodeOfEncodeIsTheCommand :
    (Instr.genrow 65535 4294967295 4294967294).wellFormed = true ∧ (Instr.dmaddl 0 1 2 4294967295).wellFormed = true := by decide

theorem witness_EveryAcceptedDescriptorIsAnEncoding :
    decode ⟨0xFFFF0020, 0xFFFFFFFF, 1, 0, 0⟩ = .ok (.genrow 65535 4294967295 1) := by decide

/-- The first and the last reserved OPC, and a listed one. -/
theorem witness_ReservedOpcodesFault :
    (Fetches (withDescriptor ⟨0x02, 0, 0, 0, 0⟩) ⟨0x02, 0, 0, 0, 0⟩ ∧ ReservedOpcode 0x02)
      ∧ (Fetches (withDescriptor ⟨0xFFFF, 7, 0, 0, 0⟩) ⟨0xFFFF, 7, 0, 0, 0⟩ ∧ ReservedOpcode (0xFFFF % 2 ^ 8))
      ∧ Fetches (withDescriptor ⟨0x01, 0, 0, 0, 0⟩) ⟨0x01, 0, 0, 0, 0⟩ ∧ ¬ReservedOpcode 0x01 := by
  refine ⟨⟨fetches_of (by decide +kernel), ?_⟩, ⟨fetches_of (by decide +kernel), ?_⟩, fetches_of (by decide +kernel), ?_⟩ <;>
    unfold ReservedOpcode <;> decide

/-- NOP with IDX = 1 (V-FLT-5c), and a descriptor that uses every field it may. -/
theorem witness_ReservedFieldsFault :
    (Fetches (withDescriptor ⟨0x00010001, 0, 0, 0, 0⟩) ⟨0x00010001, 0, 0, 0, 0⟩ ∧ ¬FieldsOk ⟨0x00010001, 0, 0, 0, 0⟩)
      ∧ (Fetches (withDescriptor ⟨0x131, 2, 4, 6, 0⟩) ⟨0x131, 2, 4, 6, 0⟩ ∧ FieldsOk ⟨0x131, 2, 4, 6, 0⟩)
      ∧ ¬ReservedOpcode 0x01 ∧ ¬ReservedOpcode 0x31 := by
  refine ⟨⟨fetches_of (by decide +kernel), ?_⟩, ⟨fetches_of (by decide +kernel), ?_⟩, ?_, ?_⟩
  · unfold FieldsOk; decide
  · unfold FieldsOk; decide
  · unfold ReservedOpcode; decide
  · unfold ReservedOpcode; decide

/-- The HALT that ends at MEM_BYTES, with the turn implicit and with it scheduled; then an access and a hard reset scheduled. -/
theorem witness_StepRunsTheDecodedCommand :
    let s := running tiny (zeros 0 512) 492
    let u : State := { s with inbox := [.access (.read 0x10010 4)] }
    let v : State := { s with inbox := [.hardReset] }
    u.cfg.valid = true ∧ u.inbox = .access (.read 0x10010 4) :: [] ∧ v.inbox = .hardReset :: [] ∧ Running s ∧ s.cmdptr.toNat % 4 = 0 ∧ s.cmdptr.toNat + 20 ≤ s.cfg.memBytes ∧ AllWritten s.mem s.cmdptr.toNat 20
      ∧ decodeBytes (bytesAt s.mem s.cmdptr.toNat 20) = .ok (.halt, []) ∧ s.inbox = []
      ∧ { s with inbox := [.sequencer, .hardReset] }.inbox = .sequencer :: [.hardReset] := by
  refine ⟨by decide, rfl, rfl, ⟨rfl, by decide⟩, by decide, by decide, allWritten_of (by decide +kernel), by decide +kernel, rfl, rfl⟩

theorem witness_IdleSequencerDoesNothing : (idle tiny []).busy = false ∧ (idle tiny []).cfg.valid = true ∧ (idle tiny []).inbox = [] := by decide

/-- CMDPTR 2; CMDPTR 496, the first aligned one past the last descriptor; CMDPTR 492 with nothing written. -/
theorem witness_FetchChecksComeFirst :
    (Running (running tiny [] 2) ∧ (running tiny [] 2).cmdptr.toNat % 4 ≠ 0)
      ∧ (Running (running tiny [] 496) ∧ (running tiny [] 496).cmdptr.toNat % 4 = 0
          ∧ tiny.memBytes < (running tiny [] 496).cmdptr.toNat + 20)
      ∧ Running (running tiny [] 492) ∧ (running tiny [] 492).cmdptr.toNat % 4 = 0
          ∧ (running tiny [] 492).cmdptr.toNat + 20 ≤ tiny.memBytes
          ∧ ¬AllWritten (running tiny [] 492).mem (running tiny [] 492).cmdptr.toNat 20 := by
  refine ⟨⟨⟨rfl, by decide⟩, by decide⟩, ⟨⟨rfl, by decide⟩, by decide, by decide⟩, ⟨rfl, by decide⟩, by decide, by decide,
    notWritten_of (by decide)⟩

/-- One command for each check: GENROW at r = N; an odd base; a range one byte too long (DEC's key at MEM_BYTES − 3); an output
that meets its input in one element. -/
theorem witness_OperandChecksRunInOrder :
    indexOk tiny (.genrow 4 0 64) = false
      ∧ (indexOk tiny (.dec 0 65) = true ∧ ∃ x ∈ [input .key 0, input .matBB 65], x.kind.isMatrix = true ∧ ¬Even2 x.addr)
      ∧ (indexOk tiny (.dec 509 64) = true
          ∧ (∀ x ∈ [input .key 509, input .matBB 64], x.kind.isMatrix = true → Even2 x.addr)
          ∧ ∃ x ∈ [input .key 509, input .matBB 64], ¬InRange tiny x.addr (x.kind.size tiny))
      ∧ indexOk tiny (.radd 0 30 64) = true
          ∧ (∀ x ∈ [input .matBB 0, inputOrAlias .matBB 30, inputOrAlias .matBB 64], InRange tiny x.addr (x.kind.size tiny))
          ∧ ∃ x ∈ [inputOrAlias .matBB 30, inputOrAlias .matBB 64],
              ¬Apart 0 (Kind.size tiny .matBB) x.addr (x.kind.size tiny) ∧ ¬(x.aliasOk = true ∧ 0 = x.addr) := by
  unfold Even2 InRange Apart; decide

/-- The smallest failing indexes, and a valid configuration with its last row and last block. -/
theorem witness_GeneratorIndexChecks :
    full.cfg.n ≤ 4 ∧ (full.cfg.n ≤ 2 ∨ 2 % 4 ≠ 0) ∧ (full.cfg.n ≤ 4 ∨ 4 % 4 ≠ 0) ∧ tc1.valid = true ∧ 7 < tc1.n
      ∧ 4 < tc1.n ∧ 4 % 4 = 0 := by decide

/-- MACR whose A0 is unwritten, and RADD one byte short of its input. -/
theorem witness_UnwrittenInputStopsTheCommand :
    (OperandsValid tiny (.macr true 0 32 64) (macrOperands 0 32 64)
        ∧ ∃ x ∈ (macrOperands 0 32 64).reads, ¬AllWritten (zeros 32 36) x.addr (x.kind.size tiny))
      ∧ OperandsValid tiny (.radd 0 32 64) (ringOperands 0 32 64)
        ∧ ∃ x ∈ (ringOperands 0 32 64).reads, ¬AllWritten (zeros 32 63) x.addr (x.kind.size tiny) := by
  refine ⟨⟨operandsValid_of (by decide), input .matNB 0, by decide, notWritten_of (by decide +kernel)⟩,
    operandsValid_of (by decide), inputOrAlias .matBB 64, by decide, notWritten_of (by decide +kernel)⟩

theorem witness_ValidatedCommandsComplete :
    operandsOf (.dmaddl 480 32 64 480) = some (dmaddlOperands 480 32 64 480)
      ∧ OperandsValid full.cfg (.dmaddl 480 32 64 480) (dmaddlOperands 480 32 64 480)
      ∧ InputsWritten full (dmaddlOperands 480 32 64 480) ∧ full.cfg.valid = true :=
  ⟨rfl, operandsValid_of (by decide), inputsWritten_of (by decide +kernel), by decide⟩

/-- A command with no operands, one that writes, and one that faults. -/
theorem witness_CommandsTouchOnlyTheirFootprint :
    (∃ t, exec .halt full = .next t) ∧ (∃ t, exec (.enc 0 64) full = .next t)
      ∧ (∃ t, exec (.enc 1 64) full = .next t) ∧ ¬OperandsValid full.cfg (.enc 1 64) (encOperands 1 64) := by
  refine ⟨⟨_, rfl⟩, ⟨_, exec_eq_complete (o := encOperands 0 64) rfl (operandsValid_of (by decide)) (inputsWritten_of (by decide +kernel))⟩,
    ⟨_, rfl⟩, operandsInvalid_of (by decide)⟩

/-- A fault from a state with both kinds of enable clear. -/
theorem witness_FaultEntryIsPrecise :
    StatusInv (running tiny [] 2) ∧ (running tiny [] 2).busy = true
      ∧ ∃ t, sequencerStep (running tiny [] 2) = .next t ∧ t.err = true := by
  refine ⟨by unfold StatusInv; decide, rfl, _, rfl, rfl⟩

/-- A NOP, and the HALT at 0. -/
theorem witness_CommandPointerOnlyGrowsByTwenty :
    StatusInv full ∧ full.busy = true
      ∧ after (fun t => (t.busy, t.done)) (sequencerStep full) = some (false, true)
      ∧ after (fun t => (t.busy, t.cmdptr)) (sequencerStep (withDescriptor ⟨1, 0, 0, 0, 0⟩)) = some (true, 20) := by
  refine ⟨by unfold StatusInv; decide, rfl, by decide +kernel, by decide +kernel⟩

/-- A step that leaves the sequencer RUNNING, a fetch past MEM_BYTES, a run of one step that is still RUNNING, and a run as long
as the bound allows and one step more. -/
theorem witness_EveryRunEnds :
    (∃ t, sequencerStep (withDescriptor ⟨1, 0, 0, 0, 0⟩) = .next t ∧ t.busy = true
        ∧ SequencerRun (withDescriptor ⟨1, 0, 0, 0, 0⟩) 1 t)
      ∧ (tiny.memBytes < (running tiny [] 496).cmdptr.toNat + 20 ∧ ∃ t, sequencerStep (running tiny [] 496) = .next t)
      ∧ ∃ t, SequencerRun (idle tiny []) (tiny.memBytes / 20 + 1) t := by
  have h1 : sequencerStep (withDescriptor ⟨1, 0, 0, 0, 0⟩)
      = .next (complete { withDescriptor ⟨1, 0, 0, 0, 0⟩ with latched := some ⟨1, 0, 0, 0, 0⟩ }) := by
    have h : Fetches (withDescriptor ⟨1, 0, 0, 0, 0⟩) ⟨1, 0, 0, 0, 0⟩ := fetches_of (by decide +kernel)
    rw [sequencerStep_of_fetches h]
    rfl
  refine ⟨⟨_, h1, rfl, .more h1 (.zero _)⟩, ⟨by decide, _, rfl⟩, idle tiny [], ?_⟩
  have h : ∀ k, SequencerRun (idle tiny []) k (idle tiny []) := by
    intro k
    induction k with
    | zero => exact .zero _
    | succ k ih => exact .more rfl ih
  exact h _

/-- The output adjacent to both inputs at the end of the SPM, and all three operands the same. -/
theorem witness_RaddWritesTheReducedSums : RingReady full 480 448 448 ∧ RingReady full 0 0 0 := by
  constructor <;> unfold RingReady Even2 InRange Apart <;>
    exact ⟨by decide, by decide, by decide, by decide, by decide, by decide, by decide, by decide,
      allWritten_of (by decide +kernel), allWritten_of (by decide +kernel)⟩

/-- The output equal to the minuend only. -/
theorem witness_RsubWritesTheReducedDifferences : RingReady full 32 32 480 := by
  unfold RingReady Even2 InRange Apart
  exact ⟨by decide, by decide, by decide, by decide, by decide, by decide, by decide, by decide,
    allWritten_of (by decide +kernel), allWritten_of (by decide +kernel)⟩

/-- The last row, the seed odd and adjacent to the output. -/
theorem witness_GenrowWritesTheXofBytes : GenrowReady full 3 500 495 ∧ GenrowReady full 0 504 500 := by
  constructor <;> unfold GenrowReady Even2 InRange Apart <;>
    exact ⟨by decide, by decide, by decide, by decide, by decide, allWritten_of (by decide +kernel)⟩

/-- The only block of `tiny`, and N a multiple of 4. -/
theorem witness_GenblkWritesFourRows : GenblkReady full 0 480 476 := by
  unfold GenblkReady Even2 InRange Apart
  exact ⟨by decide, by decide, by decide, by decide, by decide, by decide, allWritten_of (by decide +kernel)⟩

theorem witness_GenblkIsFourGenrows : GenblkReady full 0 0 508 ∧ full.cfg.n % 4 = 0 := by
  constructor
  · unfold GenblkReady Even2 InRange Apart
    exact ⟨by decide, by decide, by decide, by decide, by decide, by decide, allWritten_of (by decide +kernel)⟩
  · decide

/-- Secret and seed overlapping each other, adjacent to the output. -/
theorem macReady_full : MacReady full 480 448 448 := by
  unfold MacReady Even2 InRange Apart
  exact ⟨by decide, by decide, by decide, by decide, by decide, by decide, by decide,
    allWritten_of (by decide +kernel), allWritten_of (by decide +kernel), allWritten_of (by decide +kernel)⟩

theorem witness_MacrAddsTheProduct : MacReady full 480 448 448 := macReady_full

theorem witness_MaclAddsTheProduct : MacReady full 480 448 448 := macReady_full

theorem witness_MaclEqualsTheBlockAlgorithm : MacReady full 480 448 448 ∧ full.cfg.n % 4 = 0 := ⟨macReady_full, by decide⟩

theorem witness_MaskBitOnlyReduces : MacReady full 480 448 448 := macReady_full

/-- Two memories that differ in bit 15 of one element of `a`. -/
theorem witness_ConsumersReduceTheirInputs :
    tiny.valid = true
      ∧ (∀ x ∈ [0, 32, 64], ∀ k, red tiny (elemAt [(1, 0x80)] (x + 2 * k)) = red tiny (elemAt [] (x + 2 * k)))
      ∧ elemAt [(1, 0x80)] 0 ≠ elemAt [] 0 := by
  refine ⟨by decide, fun x hx k => ?_, by decide⟩
  by_cases h : x + 2 * k = 0
  · rw [h]; decide
  · have h1 : x + 2 * k ≠ 1 := by
      simp only [List.mem_cons, List.not_mem_nil, or_false] at hx; omega
    generalize x + 2 * k = y at h h1 ⊢
    simp [elemAt, memRead, byteAt, readByte, h, h1]

/-- `b` and `s` the same buffer, adjacent to the output. -/
theorem dmulrReady_full : DmulrReady full 480 448 448 := by
  unfold DmulrReady Even2 InRange Apart
  exact ⟨by decide, by decide, by decide, by decide, by decide, by decide, by decide, by decide,
    allWritten_of (by decide +kernel), allWritten_of (by decide +kernel)⟩

theorem witness_DmulrWritesTheReducedProduct : DmulrReady full 480 448 448 := dmulrReady_full

/-- In place, and with `e` adjacent to the output. -/
theorem witness_DmaddlAddsTheReducedProduct : DmaddlReady full 480 448 448 480 ∧ DmaddlReady full 480 448 448 448 := by
  constructor <;> unfold DmaddlReady <;> refine ⟨dmulrReady_full, ?_⟩ <;> unfold Even2 InRange Apart <;>
    exact ⟨by decide, by decide, by decide, allWritten_of (by decide +kernel)⟩

/-- An odd key that ends where the matrix begins. -/
theorem encReady_full : EncReady full 480 475 := by
  unfold EncReady Even2 InRange Apart
  exact ⟨by decide, by decide, by decide, by decide, by decide, allWritten_of (by decide +kernel)⟩

theorem witness_EncPlacesTheFields : EncReady full 480 475 := encReady_full

theorem witness_DecPacksTheRoundedFields : DecReady full 507 474 := by
  unfold DecReady Even2 InRange Apart
  exact ⟨by decide, by decide, by decide, by decide, by decide, allWritten_of (by decide +kernel)⟩

/-- Both sides of the tie, the wrap at q, and one field's interval. -/
theorem witness_DecRoundsToNearest :
    tc1.valid = true ∧ (red tc1 0x0FFF).toNat % tc1.stepQ < tc1.halfQ ∧ tc1.halfQ ≤ (red tc1 0x1000).toNat % tc1.stepQ
      ∧ 2 ^ tc1.logq - tc1.halfQ ≤ (red tc1 0x7000).toNat ∧ 3 < 2 ^ tc1.eb := by decide

/-- The matrix of V-COD-2 with the noise `d` added to every element, at 64. -/
def elemMem (d : Int) : Memory :=
  put 64 (([0x0000, 0x2000, 0x4000, 0x6000, 0x6000, 0x4000, 0x2000, 0x0000, 0x6000, 0x6000, 0x6000, 0x6000, 0, 0, 0, 0] : List Elem).map
    (· + BitVec.ofInt 16 d)) []

/-- The key of V-COD-2 at 0 with the matrix of V-COD-2, in `tiny`; then the same with each of the noises of V-COD-4. -/
theorem witness_CodecRoundTripLaws :
    tiny.valid = true ∧ (tiny.halfQ = 0x1000)
      ∧ ∀ d ∈ [(0 : Int), 0x0FFF, -0x1000, 0x1000, -0x1001], ∀ k, k < tiny.nbar * tiny.nbar →
          elemAt (elemMem d) (64 + 2 * k) = encElem tiny (writeBytes [] 0 [0xE4, 0x1B, 0xFF, 0x00]) 0 k + BitVec.ofInt 16 d := by
  decide +kernel

/-- The key written over itself. -/
theorem witness_EncThenDecReturnsTheKey :
    EncReady full 480 475 ∧ InRange tiny 475 (tiny.nbar * tiny.nbar * tiny.eb / 8)
      ∧ Apart 475 (tiny.nbar * tiny.nbar * tiny.eb / 8) 480 (2 * tiny.nbar ^ 2) := by
  refine ⟨encReady_full, ?_, ?_⟩
  · unfold InRange; decide
  · unfold Apart; decide

/-- MACL.Q, and its last element. -/
theorem witness_RingClosureOfResults :
    full.cfg.valid = true ∧ ClosesRing (.macl true 480 448 448)
      ∧ OperandsValid full.cfg (.macl true 480 448 448) (maclOperands 480 448 448)
      ∧ (∃ t, exec (.macl true 480 448 448) full = .next t) ∧ 2 * 15 < Kind.size tiny .matBN := by
  refine ⟨by decide, rfl, operandsValid_of (by decide), ⟨_, exec_eq_complete (o := maclOperands 480 448 448) rfl
    (operandsValid_of (by decide)) (inputsWritten_of (by decide +kernel))⟩, by decide⟩

/-- Two states that differ in CMDPTR, in STATUS, and outside DEC's input. -/
theorem witness_ResultsDependOnTheInputsOnly :
    let s' : State := { full with mem := writeByte full.mem 32 0xFF, cmdptr := 8, done := true }
    full.cfg.valid = true ∧ s'.cfg = full.cfg ∧ OperandsValid full.cfg (.dec 64 0) (decOperands 64 0)
      ∧ (∀ x ∈ (decOperands 64 0).reads, ∀ a, x.addr ≤ a → a < x.addr + x.kind.size full.cfg →
          readByte s'.mem a = readByte full.mem a)
      ∧ (∃ t, exec (.dec 64 0) full = .next t) ∧ ∃ t, exec (.dec 64 0) s' = .next t := by
  refine ⟨by decide, rfl, operandsValid_of (by decide), fun x hx a h1 h2 => ?_,
    ⟨_, exec_eq_complete (o := decOperands 64 0) rfl (operandsValid_of (by decide)) (inputsWritten_of (by decide +kernel))⟩,
    ⟨_, exec_eq_complete (o := decOperands 64 0) rfl (operandsValid_of (by decide)) (inputsWritten_of (by decide +kernel))⟩⟩
  have h3 : a < 32 := by
    simp only [decOperands, Operands.reads, Bool.false_eq_true, if_false, List.mem_cons, List.not_mem_nil, or_false] at hx
    subst hx; exact lt_of_lt_of_le h2 (by decide)
  rw [readByte_writeByte, if_neg (by omega)]

/-- BUSY; IDLE and invalid; IDLE and valid. -/
theorem witness_StartRequestCases :
    full.busy = true ∧ ((State.resetOf { tc1 with n := 6 }).busy = false ∧ (State.resetOf { tc1 with n := 6 }).cfg.valid = false)
      ∧ (State.resetOf tc1).busy = false ∧ (State.resetOf tc1).cfg.valid = true := by decide

/-- SRST with START, START alone, neither. -/
theorem witness_CtrlWriteOrder :
    ((3 : Word).getLsbD 1 = true) ∧ ((0x101 : Word).getLsbD 1 = false ∧ (0x101 : Word).getLsbD 0 = true)
      ∧ (0x300 : Word).getLsbD 1 = false ∧ (0x300 : Word).getLsbD 0 = false := by decide

theorem witness_ConstantRegisters : (State.resetOf tc1).cfg.valid = true ∧ 0x00 ∈ [0x00, 0x04, 0x08] ∧ 0x08 ∈ [0x00, 0x04, 0x08] := by decide

/-- IDLE and RUNNING; the last register of the map; and both ends of each window. -/
theorem witness_PointerCountAndReservedOffsets :
    (idle tiny []).busy = false ∧ full.busy = true ∧ 0x1C ≤ 0x1C
      ∧ (busTarget full.cfg 0x100FC = .register 0xFC ∧ 0xFC % 4 = 0)
      ∧ (255 < 256 ∧ ¬(tiny.spmBase ≤ tiny.regBase + 255 ∧ tiny.regBase + 255 < tiny.spmBase + tiny.memBytes))
      ∧ 511 < tiny.memBytes ∧ ¬(tiny.regBase ≤ tiny.spmBase + 511 ∧ tiny.spmBase + 511 < tiny.regBase + 256) := by decide

theorem witness_BusyIgnoresStartAndPointerWrites :
    full.busy = true ∧ (0x301 : Word).getLsbD 0 = true ∧ (0x301 : Word).getLsbD 1 = false := by decide

theorem witness_InvalidConfigurationNeverRuns :
    (idle { tiny with eb := 0 } []).cfg.valid = false ∧ (idle { tiny with eb := 0 } []).busy = false
      ∧ (running { tiny with eb := 0 } [] 0).cfg.valid = false ∧ (running { tiny with eb := 0 } [] 0).busy = true := by decide

/-- Each width at the last address it fits. -/
theorem witness_HostWriteThenRead :
    (idle tiny []).busy = false ∧ ∀ x ∈ [(511, 1), (510, 2), (508, 4)], x.2 ∈ [1, 2, 4] ∧ x.1 % x.2 = 0 ∧ x.1 + x.2 ≤ tiny.memBytes
      ∧ busTarget tiny (tiny.spmBase + x.1) = .spm x.1 := by decide

theorem witness_HostReadsHaveNoSideEffect :
    (∃ t, hostAccess (.read 0x10010 4) full = .next t) ∧ ∃ t, hostAccess (.read 0x20000 1) (idle tiny []) = .next t :=
  ⟨⟨_, rfl⟩, _, rfl⟩

/-- With nothing written and with everything written. -/
theorem witness_HostSpmReadsComplete :
    (idle tiny []).busy = false ∧ busTarget tiny (tiny.spmBase + 508) = .spm 508 ∧ 508 + 4 ≤ tiny.memBytes
      ∧ AllWritten (idle tiny (zeros 0 512)).mem 508 4 :=
  ⟨rfl, by decide, by decide, allWritten_of (by decide +kernel)⟩

theorem witness_BusySpmAccessStops :
    full.busy = true ∧ 4 ∈ [1, 2, 4] ∧ 508 % 4 = 0 ∧ 508 + 4 ≤ tiny.memBytes ∧ busTarget tiny (tiny.spmBase + 508) = .spm 508 := by decide

/-- Just past the SPM window; a width of 3; a misaligned access; an access that runs past the window; a register access of 2 bytes
and one at offset 2. -/
theorem witness_AccessesOutsideTheInterfaceAreRefused :
    busTarget tiny (0x20000 + 512) = .outside
      ∧ (busTarget tiny 0x20000 = .spm 0 ∧ 3 ∉ [1, 2, 4])
      ∧ (busTarget tiny 0x20002 = .spm 2 ∧ 2 % 4 ≠ 0)
      ∧ (busTarget tiny (0x20000 + 511) = .spm 511 ∧ tiny.memBytes < 511 + 2)
      ∧ (busTarget tiny 0x10010 = .register 0x10 ∧ 2 ≠ 4) ∧ busTarget tiny 0x10002 = .register 2 ∧ 2 % 4 ≠ 0 := by decide

/-- IDLE; CMDPTR that fails its checks; a command with an output; HALT, a reserved OPC and an ENC that faults; an unwritten
descriptor. -/
theorem witness_SoftResetAbortsTheCommand :
    (idle tiny []).busy = false
      ∧ ((running tiny [] 2).busy = true ∧ (running tiny [] 2).cmdptr.toNat % 4 ≠ 0)
      ∧ tiny.memBytes < (running tiny [] 496).cmdptr.toNat + 20
      ∧ (Fetches (withDescriptor (encode (.enc 480 64))) (encode (.enc 480 64)) ∧ decode (encode (.enc 480 64)) = .ok (.enc 480 64)
          ∧ OperandsValid tiny (.enc 480 64) (encOperands 480 64))
      ∧ (Fetches full ⟨0, 0, 0, 0, 0⟩ ∧ ∀ i o, decode ⟨0, 0, 0, 0, 0⟩ = .ok i → operandsOf i = some o → ¬OperandsValid tiny i o)
      ∧ (Fetches (withDescriptor (encode (.enc 481 64))) (encode (.enc 481 64)) ∧ ¬OperandsValid tiny (.enc 481 64) (encOperands 481 64))
      ∧ (running tiny [] 492).cmdptr.toNat + 20 ≤ tiny.memBytes ∧ ¬AllWritten (running tiny [] 492).mem 492 20 := by
  refine ⟨rfl, ⟨rfl, by decide⟩, by decide, ⟨fetches_of (by decide +kernel), by decide, operandsValid_of (by decide)⟩,
    ⟨fetches_of (by decide +kernel), fun i o h h' => ?_⟩, ⟨fetches_of (by decide +kernel), operandsInvalid_of (by decide)⟩, by decide,
    notWritten_of (by decide)⟩
  have h0 : decode ⟨0, 0, 0, 0, 0⟩ = .ok .halt := by decide
  rw [h0] at h
  cases h
  cases h'

/-- A state that a hard reset gives from reset itself, and one that a soft reset gives. -/
theorem witness_HardResetValues :
    (State.resetOf tc1).cfg = tc1 ∧ (State.resetOf tc1).inbox = [] ∧ (State.resetOf tc1).hostData = none ∧ (State.resetOf tc1).draws = 0 := by
  decide

theorem witness_AfterResetNothingIsFetched :
    (softReset (idle tiny [])).cfg.valid = true ∧ (hardReset full).cfg.valid = true := by decide

/-- A host write and a NOP, from states that meet the invariant. -/
theorem witness_EveryStepKeepsTheMachineInvariant :
    MachineInv (running tiny [] 2) ∧ ∃ t, step (running tiny [] 2) = .next t := by
  refine ⟨⟨by unfold StatusInv; decide, by decide, fun x b h => ?_⟩, _, rfl⟩
  cases h

theorem witness_EveryStepKeepsTheConfiguration :
    ∃ t, step { idle tiny [] with inbox := [.access (.write 0x1000C 4 2)] } = .next t := ⟨_, rfl⟩

/-- The START of an idle block through the bus; and a RUNNING step that stays RUNNING. -/
theorem witness_BusyRisesOnlyByAHostStart :
    ((idle tiny []).busy = false
        ∧ after (·.busy) (step { idle tiny [] with inbox := [.access (.write 0x1000C 4 1)] }) = some true)
      ∧ StatusInv (withDescriptor ⟨1, 0, 0, 0, 0⟩) ∧ (withDescriptor ⟨1, 0, 0, 0, 0⟩).busy = true
      ∧ after (·.busy) (sequencerStep (withDescriptor ⟨1, 0, 0, 0, 0⟩)) = some true := by
  refine ⟨⟨rfl, by decide⟩, by unfold StatusInv; decide, rfl, by decide +kernel⟩

end Sys2Proof.Tests
end

section
/-! The registers and the host bus, said once: what each register read and write is, and what an access of each target does. -/

namespace Sys2Proof.Machine

/-! ### The register map (10_state.md R25) -/

@[simp] theorem readRegister_param0 (s : State) : readRegister 0x00 s = param0 s.cfg := rfl
@[simp] theorem readRegister_param1 (s : State) : readRegister 0x04 s = param1 s.cfg := rfl
@[simp] theorem readRegister_memsize (s : State) : readRegister 0x08 s = memsize s.cfg := rfl
@[simp] theorem readRegister_ctrl (s : State) : readRegister 0x0C s = ctrlWord s := rfl
@[simp] theorem readRegister_status (s : State) : readRegister 0x10 s = statusWord s := rfl
@[simp] theorem readRegister_cmdptr (s : State) : readRegister 0x14 s = s.cmdptr := rfl
@[simp] theorem readRegister_cmdcount (s : State) : readRegister 0x18 s = s.cmdcount := rfl

/-- An offset past the map reads 0 (10_state.md R24). -/
theorem readRegister_unlisted {off : Nat} (h : 0x1C ≤ off) (s : State) : readRegister off s = 0 := by
  unfold readRegister
  simp (disch := omega) only [if_neg]

@[simp] theorem writeRegister_ctrl (v : Word) (s : State) : writeRegister 0x0C v s = writeCtrl v s := rfl
@[simp] theorem writeRegister_status (v : Word) (s : State) : writeRegister 0x10 v s = writeStatus v s := rfl
@[simp] theorem writeRegister_cmdptr (v : Word) (s : State) : writeRegister 0x14 v s = writeCmdptr v s := rfl

/-- A write of any other register, read-only or unlisted, is ignored (10_state.md R24). -/
theorem writeRegister_ignored {off : Nat} (hc : off ≠ 0x0C) (hs : off ≠ 0x10) (hp : off ≠ 0x14) (v : Word) (s : State) :
    writeRegister off v s = s := by
  unfold writeRegister
  rw [if_neg hc, if_neg hs, if_neg hp]

theorem writeCmdptr_of_idle {s : State} (h : s.busy = false) (v : Word) : writeCmdptr v s = { s with cmdptr := v } := by
  simp [writeCmdptr, h]

theorem writeCmdptr_of_busy {s : State} (h : s.busy = true) (v : Word) : writeCmdptr v s = s := by
  simp [writeCmdptr, h]

/-- STATUS bit 3 is CFGERR, a function of the configuration (10_state.md R30). -/
theorem statusWord_getLsbD_three (s : State) : (statusWord s).getLsbD 3 = cfgErr s := by
  have hbusy := Bool.toNat_lt s.busy
  have hdone := Bool.toNat_lt s.done
  have herr := Bool.toNat_lt s.err
  rw [BitVec.getLsbD, statusWord_toNat, Nat.testBit_eq_decide_div_mod_eq]
  cases cfgErr s <;> simp only [Bool.toNat_true, Bool.toNat_false, decide_eq_true_eq, decide_eq_false_iff_not] <;> omega

/-! ### Address decoding (00_scope.md R11) -/

/-- The register window outside the SPM window. -/
theorem busTarget_register {p : Params} {off : Nat} (hoff : off < 256)
    (hspm : ¬(p.spmBase ≤ p.regBase + off ∧ p.regBase + off < p.spmBase + p.memBytes)) :
    busTarget p (p.regBase + off) = .register off := by
  unfold busTarget
  have hin : (decide (p.regBase ≤ p.regBase + off) && decide (p.regBase + off < p.regBase + 256)) = true := by simpa
  have hout : (decide (p.spmBase ≤ p.regBase + off) && decide (p.regBase + off < p.spmBase + p.memBytes)) = false := by
    rwa [← Bool.decide_and, decide_eq_false_iff_not]
  simp only [hin, hout, Nat.add_sub_cancel_left]

/-- The SPM window outside the register window. -/
theorem busTarget_spm {p : Params} {a : Nat} (ha : a < p.memBytes)
    (hreg : ¬(p.regBase ≤ p.spmBase + a ∧ p.spmBase + a < p.regBase + 256)) :
    busTarget p (p.spmBase + a) = .spm a := by
  unfold busTarget
  have hin : (decide (p.spmBase ≤ p.spmBase + a) && decide (p.spmBase + a < p.spmBase + p.memBytes)) = true := by simpa
  have hout : (decide (p.regBase ≤ p.spmBase + a) && decide (p.spmBase + a < p.regBase + 256)) = false := by
    rwa [← Bool.decide_and, decide_eq_false_iff_not]
  simp only [hin, hout, Nat.add_sub_cancel_left]

/-! ### One host access -/

theorem registerAccessOk_iff (off n : Nat) : registerAccessOk off n = true ↔ n = 4 ∧ off % 4 = 0 := by
  simp [registerAccessOk]

/-- The bus address of an access. -/
def HostAccess.addr : HostAccess → Nat
  | .read addr _ => addr
  | .write addr _ _ => addr

/-- The width of an access in bytes. -/
def HostAccess.bytes : HostAccess → Nat
  | .read _ n => n
  | .write _ n _ => n

/-- What an access of the register at `off` leaves (10_state.md R24). -/
def HostAccess.onRegister (off : Nat) (s : State) : HostAccess → State
  | .read _ _ => { s with hostData := some (readRegister off s) }
  | .write _ _ v => writeRegister off v s

/-- What an access of the SPM at `a` leaves in IDLE (20_memory.md R60, R64). -/
def HostAccess.onSpm (a : Nat) (s : State) : HostAccess → State
  | .read _ n =>
    { s with
      hostData := some (BitVec.ofNat 32 (hostRead s.mem s.draws a n).1)
      draws := (hostRead s.mem s.draws a n).2 }
  | .write _ n v => { s with mem := writeBytes s.mem a (bytesLE v.toNat n) }

section
variable {x : HostAccess} {s t : State} {off a : Nat}

theorem hostAccess_outside (ht : busTarget s.cfg x.addr = .outside) : hostAccess x s = .refused .hostBusError := by
  cases x <;> simp only [HostAccess.addr] at ht <;> simp [hostAccess, ht]

/-- A register access of the interface completes, BUSY or not (10_state.md R24). -/
theorem hostAccess_register (ht : busTarget s.cfg x.addr = .register off) (hok : registerAccessOk off x.bytes = true) :
    hostAccess x s = .next (x.onRegister off s) := by
  cases x <;> simp only [HostAccess.addr, HostAccess.bytes] at ht hok <;> simp [hostAccess, HostAccess.onRegister, ht, hok]

theorem hostAccess_register_refused (ht : busTarget s.cfg x.addr = .register off)
    (hok : registerAccessOk off x.bytes = false) : hostAccess x s = .refused .hostBusError := by
  cases x <;> simp only [HostAccess.addr, HostAccess.bytes] at ht hok <;> simp [hostAccess, ht, hok]

/-- An SPM access of the interface completes in IDLE (20_memory.md R60). -/
theorem hostAccess_spm (ht : busTarget s.cfg x.addr = .spm a) (hok : spmAccessOk s.cfg a x.bytes = true)
    (hidle : s.busy = false) : hostAccess x s = .next (x.onSpm a s) := by
  cases x <;> simp only [HostAccess.addr, HostAccess.bytes] at ht hok <;>
    simp [hostAccess, HostAccess.onSpm, ht, hok, hidle]

/-- An SPM access of the interface stops while BUSY (20_memory.md R61). -/
theorem hostAccess_spm_busy (ht : busTarget s.cfg x.addr = .spm a) (hok : spmAccessOk s.cfg a x.bytes = true)
    (hbusy : s.busy = true) : hostAccess x s = .fault .hostBusyAccess := by
  cases x <;> simp only [HostAccess.addr, HostAccess.bytes] at ht hok <;> simp [hostAccess, ht, hok, hbusy]

theorem hostAccess_spm_refused (ht : busTarget s.cfg x.addr = .spm a) (hok : spmAccessOk s.cfg a x.bytes = false) :
    hostAccess x s = .refused .hostBusError := by
  cases x <;> simp only [HostAccess.addr, HostAccess.bytes] at ht hok <;> simp [hostAccess, ht, hok]

/-- All that a host access can do when it answers a next state: a register access, or in IDLE an SPM access. -/
theorem hostAccess_next (h : hostAccess x s = .next t) :
    (∃ off, busTarget s.cfg x.addr = .register off ∧ registerAccessOk off x.bytes = true ∧ t = x.onRegister off s)
      ∨ ∃ a, busTarget s.cfg x.addr = .spm a ∧ spmAccessOk s.cfg a x.bytes = true ∧ s.busy = false
        ∧ t = x.onSpm a s := by
  cases ht : busTarget s.cfg x.addr with
  | outside => rw [hostAccess_outside ht] at h; cases h
  | register off =>
    cases hok : registerAccessOk off x.bytes with
    | false => rw [hostAccess_register_refused ht hok] at h; cases h
    | true => rw [hostAccess_register ht hok] at h; cases h; exact .inl ⟨off, rfl, hok, rfl⟩
  | spm a =>
    cases hok : spmAccessOk s.cfg a x.bytes with
    | false => rw [hostAccess_spm_refused ht hok] at h; cases h
    | true =>
      cases hb : s.busy with
      | true => rw [hostAccess_spm_busy ht hok hb] at h; cases h
      | false => rw [hostAccess_spm ht hok hb] at h; cases h; exact .inr ⟨a, rfl, hok, rfl, rfl⟩

end

end Sys2Proof.Machine
end

section
/-! The configuration is kept by every operation, hence by every step (10_state.md R20). -/

namespace Sys2Proof.Machine

@[simp] theorem softReset_cfg (s : State) : (softReset s).cfg = s.cfg := by
  obtain ⟨m, hm, -⟩ := softReset_eq s
  rw [hm, resetRegisters_cfg]

@[simp] theorem startRequest_cfg (s : State) : (startRequest s).cfg = s.cfg := by
  unfold startRequest
  split
  · rfl
  · split
    · rfl
    · exact acceptStart_cfg s

@[simp] theorem writeCtrl_cfg (v : Word) (s : State) : (writeCtrl v s).cfg = s.cfg := by
  unfold writeCtrl
  split
  · exact softReset_cfg s
  · simp only
    split
    · exact startRequest_cfg _
    · rfl

@[simp] theorem writeCmdptr_cfg (v : Word) (s : State) : (writeCmdptr v s).cfg = s.cfg := by
  unfold writeCmdptr
  split <;> rfl

@[simp] theorem writeRegister_cfg (off : Nat) (v : Word) (s : State) : (writeRegister off v s).cfg = s.cfg := by
  unfold writeRegister
  split
  · exact writeCtrl_cfg v s
  · split
    · exact writeStatus_cfg v s
    · split
      · exact writeCmdptr_cfg v s
      · rfl

theorem HostAccess.onRegister_cfg (x : HostAccess) (off : Nat) (s : State) : (x.onRegister off s).cfg = s.cfg := by
  cases x with
  | read _ _ => rfl
  | write _ _ v => exact writeRegister_cfg off v s

theorem HostAccess.onSpm_cfg (x : HostAccess) (a : Nat) (s : State) : (x.onSpm a s).cfg = s.cfg := by
  cases x <;> rfl

theorem hostAccess_cfg {x : HostAccess} {s t : State} (h : hostAccess x s = .next t) : t.cfg = s.cfg := by
  rcases hostAccess_next h with ⟨off, -, -, rfl⟩ | ⟨a, -, -, -, rfl⟩
  · exact x.onRegister_cfg off s
  · exact x.onSpm_cfg a s

theorem sequencerStep_cfg {s t : State} (h : sequencerStep s = .next t) : t.cfg = s.cfg := by
  cases hb : s.busy with
  | false =>
    rcases sequencerStep_next h with ⟨-, rfl⟩ | ⟨hb', -⟩
    · rfl
    · simp [hb] at hb'
  | true =>
    obtain ⟨-, ⟨_, _, -, rfl⟩ | ⟨_, rfl⟩ | ⟨_, _, -, rfl, -⟩⟩ := sequencerStep_running hb h <;> rfl

/-- A turn of any agent keeps the configuration. -/
theorem takeTurn_cfg {u : Turn} {s t : State} (h : takeTurn u s = .next t) : t.cfg = s.cfg := by
  cases u with
  | access x => exact hostAccess_cfg h
  | hardReset => cases h; exact hardReset_cfg s
  | sequencer => exact sequencerStep_cfg h

theorem step_cfg {s t : State} (h : step s = .next t) : t.cfg = s.cfg := by
  obtain ⟨-, ⟨-, hseq⟩ | ⟨u, rest, -, hturn⟩⟩ := step_next h
  · exact sequencerStep_cfg hseq
  · exact (takeTurn_cfg hturn).trans rfl

end Sys2Proof.Machine
end

section
/-! The obligations of 00_scope.md. -/

namespace Sys2Proof.Machine

/-- Settles O59: the constant registers are functions of the configuration, which no turn changes. -/
theorem everyStepKeepsTheConfiguration : Obligations.EveryStepKeepsTheConfiguration := by
  intro s t h
  have hcfg := step_cfg h
  have hcfgErr : cfgErr t = cfgErr s := by rw [cfgErr, cfgErr, hcfg]
  simp only [readRegister_param0, readRegister_param1, readRegister_memsize, readRegister_status,
    statusWord_getLsbD_three, hcfg, hcfgErr, and_self]

/-- Settles O46, from the register map, the bus's register accesses and the decoding of the two windows. -/
theorem pointerCountAndReservedOffsets : Obligations.PointerCountAndReservedOffsets := by
  refine ⟨fun s v => ⟨readRegister_cmdptr s, readRegister_cmdcount s, ?_, ?_, ?_, ?_⟩, ?_, ?_, ?_⟩
  · intro hidle; exact writeCmdptr_of_idle hidle v
  · intro hbusy; exact writeCmdptr_of_busy hbusy v
  · exact writeRegister_ignored (by decide) (by decide) (by decide) v s
  · intro off hoff
    exact ⟨readRegister_unlisted hoff s, writeRegister_ignored (by omega) (by omega) (by omega) v s⟩
  · intro s addr off v ht hal
    have hok := (registerAccessOk_iff off 4).2 ⟨rfl, hal⟩
    exact ⟨hostAccess_register (x := .read addr 4) ht hok, hostAccess_register (x := .write addr 4 v) ht hok⟩
  · intro p off hoff hspm; exact busTarget_register hoff hspm
  · intro p a ha hreg; exact busTarget_spm ha hreg

end Sys2Proof.Machine
end

section
/-! `StartRequest()` case by case (46_sequencer_control.md R201), and what a write of CTRL or STATUS does (10_state.md R29, R30). -/

namespace Sys2Proof.Machine

section
variable {s : State} {v : Word}

theorem startRequest_of_busy (hbusy : s.busy = true) : startRequest s = s := by simp [startRequest, hbusy]

theorem startRequest_of_invalid (hidle : s.busy = false) (hcfg : s.cfg.valid = false) :
    startRequest s = { s with err := true, errcode := FaultCode.cfgInvalid.code, done := false } := by
  simp [startRequest, cfgErr, hidle, hcfg]

theorem startRequest_of_valid (hidle : s.busy = false) (hcfg : s.cfg.valid = true) :
    startRequest s = acceptStart s := by
  simp [startRequest, cfgErr, hidle, hcfg]

@[simp] theorem startRequest_mem (s : State) : (startRequest s).mem = s.mem := by
  unfold startRequest
  split
  · rfl
  · split <;> rfl

theorem writeCtrl_of_srst (hsrst : v.getLsbD 1 = true) : writeCtrl v s = softReset s := by
  rw [writeCtrl, if_pos hsrst]

theorem writeCtrl_of_start (hsrst : v.getLsbD 1 = false) (hstart : v.getLsbD 0 = true) :
    writeCtrl v s = startRequest { s with ieDone := v.getLsbD 8, ieErr := v.getLsbD 9 } := by
  rw [writeCtrl, if_neg (Bool.eq_false_iff.1 hsrst), if_pos hstart]

theorem writeCtrl_of_enables (hsrst : v.getLsbD 1 = false) (hstart : v.getLsbD 0 = false) :
    writeCtrl v s = { s with ieDone := v.getLsbD 8, ieErr := v.getLsbD 9 } := by
  rw [writeCtrl, if_neg (Bool.eq_false_iff.1 hsrst), if_neg (Bool.eq_false_iff.1 hstart)]

/-- The W1C bits of STATUS: bit 1 clears DONE, bit 2 clears ERR and ERRCODE (10_state.md R30). -/
theorem writeStatus_eq (v : Word) (s : State) :
    writeStatus v s = { s with
      done := if v.getLsbD 1 = true then false else s.done
      err := if v.getLsbD 2 = true then false else s.err
      errcode := if v.getLsbD 2 = true then 0 else s.errcode } := by
  unfold writeStatus
  cases v.getLsbD 1 <;> cases v.getLsbD 2 <;> simp

end

end Sys2Proof.Machine
end

section
/-! The machine's invariant (10_state.md R30, R34): each operation keeps its STATUS part and its SPM part, hence every turn of any
agent keeps both. -/

namespace Sys2Proof.Machine

theorem FaultCode.code_ne_zero (c : FaultCode) : c.code ≠ 0 := by cases c <;> decide

theorem FaultCode.code_le_nine (c : FaultCode) : c.code.toNat ≤ 9 := by cases c <;> decide

section
variable {s t : State}

/-! ### The STATUS part -/

/-- With no flag set the STATUS invariant asks only that a run be in a valid configuration. -/
theorem statusInv_of_clear (hdone : s.done = false) (herr : s.err = false) (hcode : s.errcode = 0)
    (hvalid : s.busy = true → s.cfg.valid = true) : StatusInv s :=
  ⟨fun _ => ⟨hdone, herr⟩, by simp [hdone], by simp [herr, hcode], by simp [hcode], hvalid⟩

/-- An IDLE block that reports a fault code meets the STATUS invariant. -/
theorem statusInv_of_fault {c : FaultCode} (hidle : s.busy = false) (hdone : s.done = false) (herr : s.err = true)
    (hcode : s.errcode = c.code) : StatusInv s :=
  ⟨by simp [hidle], by simp [hdone], iff_of_true (hcode ▸ c.code_ne_zero) herr, hcode ▸ c.code_le_nine, by simp [hidle]⟩

theorem statusInv_resetRegisters (s : State) : StatusInv (resetRegisters s) :=
  statusInv_of_clear rfl rfl rfl (by simp)

theorem statusInv_raiseFault (c : FaultCode) (s : State) : StatusInv (raiseFault c s) :=
  statusInv_of_fault rfl rfl rfl rfl

/-- HALT sets DONE beside no ERR, since a run has none. -/
theorem statusInv_endAtHalt (h : StatusInv s) (hbusy : s.busy = true) : StatusInv (endAtHalt s) := by
  obtain ⟨hclear, -, hcode, hle, -⟩ := h
  obtain ⟨-, herr⟩ := hclear hbusy
  exact ⟨by simp, by simp [herr], hcode, hle, by simp⟩

/-- A write of STATUS sets no flag, and clears ERR and ERRCODE together. -/
theorem statusInv_writeStatus (h : StatusInv s) (v : Word) : StatusInv (writeStatus v s) := by
  obtain ⟨hclear, hexcl, hcode, hle, hvalid⟩ := h
  have hdone : (if v.getLsbD 1 = true then false else s.done) = true → s.done = true := by
    split <;> simp
  have hclr : s.busy = true → (if v.getLsbD 1 = true then false else s.done) = false := fun hbusy => by
    rw [(hclear hbusy).1, ite_self]
  rw [writeStatus_eq]
  by_cases hw : v.getLsbD 2 = true
  · simp only [if_pos hw]
    exact ⟨fun hbusy => ⟨hclr hbusy, rfl⟩, by simp, by simp, by simp, hvalid⟩
  · simp only [if_neg hw]
    exact ⟨fun hbusy => ⟨hclr hbusy, (hclear hbusy).2⟩, fun hb => hexcl ⟨hdone hb.1, hb.2⟩, hcode, hle, hvalid⟩

/-- A refused START records a code, an accepted one clears every flag. -/
theorem statusInv_startRequest (h : StatusInv s) : StatusInv (startRequest s) := by
  cases hbusy : s.busy with
  | true => rwa [startRequest_of_busy hbusy]
  | false =>
    cases hcfg : s.cfg.valid with
    | false => rw [startRequest_of_invalid hbusy hcfg]; exact statusInv_of_fault (c := .cfgInvalid) hbusy rfl rfl rfl
    | true => rw [startRequest_of_valid hbusy hcfg]; exact statusInv_of_clear rfl rfl rfl fun _ => hcfg

theorem statusInv_softReset (s : State) : StatusInv (softReset s) := by
  obtain ⟨m, hm, -⟩ := softReset_eq s
  rw [hm]
  exact statusInv_resetRegisters _

/-! ### The SPM part -/

/-- The SPM invariant is kept when the SPM loses bytes and gains none. -/
theorem memInv_of_subset (h : MemInv s) (hcfg : t.cfg = s.cfg)
    (hwf : Memory.wf s.mem = true → Memory.wf t.mem = true)
    (hsub : ∀ x b, readByte t.mem x = some b → readByte s.mem x = some b) : MemInv t := by
  obtain ⟨hs, hbound⟩ := h
  refine ⟨hwf hs, fun x b hx => ?_⟩
  rw [hcfg]
  exact hbound x b (hsub x b hx)

theorem memInv_hardReset (s : State) : MemInv (hardReset s) := ⟨rfl, fun _ _ h => nomatch h⟩

theorem memInv_softReset (h : MemInv s) : MemInv (softReset s) := by
  obtain ⟨m, hm, hwf, hsub⟩ := softReset_eq s
  rw [hm]
  exact memInv_of_subset h rfl hwf hsub

/-- A write inside MEM_BYTES keeps the SPM invariant. -/
theorem memInv_writeBytes (h : MemInv s) {a : Nat} {bs : List Byte} (hin : a + bs.length ≤ s.cfg.memBytes) :
    MemInv { s with mem := writeBytes s.mem a bs } := by
  obtain ⟨hwf, hbound⟩ := h
  refine ⟨wf_writeBytes hwf a bs, fun x b hx => ?_⟩
  simp only [readByte_writeBytes] at hx
  split at hx
  · next hblock => exact lt_of_lt_of_le hblock.2 hin
  · exact hbound x b hx

/-- A START leaves the SPM as it is. -/
theorem memInv_startRequest (h : MemInv s) : MemInv (startRequest s) := by
  unfold MemInv
  rwa [startRequest_mem, startRequest_cfg]

/-! ### Both parts, from the register writes up to a turn -/

theorem machineInv_writeCtrl (h : MachineInv s) (v : Word) : MachineInv (writeCtrl v s) := by
  obtain ⟨hstatus, hmem⟩ := h
  cases hsrst : v.getLsbD 1 with
  | true => rw [writeCtrl_of_srst hsrst]; exact ⟨statusInv_softReset s, memInv_softReset hmem⟩
  | false =>
    cases hstart : v.getLsbD 0 with
    | true => rw [writeCtrl_of_start hsrst hstart]; exact ⟨statusInv_startRequest hstatus, memInv_startRequest hmem⟩
    | false => rw [writeCtrl_of_enables hsrst hstart]; exact ⟨hstatus, hmem⟩

theorem machineInv_writeCmdptr (h : MachineInv s) (v : Word) : MachineInv (writeCmdptr v s) := by
  unfold writeCmdptr
  split <;> exact h

theorem machineInv_writeRegister (h : MachineInv s) (off : Nat) (v : Word) : MachineInv (writeRegister off v s) := by
  unfold writeRegister
  split
  · exact machineInv_writeCtrl h v
  · split
    · exact ⟨statusInv_writeStatus h.1 v, h.2⟩
    · split
      · exact machineInv_writeCmdptr h v
      · exact h

theorem machineInv_hardReset (s : State) : MachineInv (hardReset s) :=
  ⟨statusInv_resetRegisters s, memInv_hardReset s⟩

/-- An SPM access of the interface ends inside the SPM (20_memory.md R62). -/
theorem spmAccessOk_inside {p : Params} {a n : Nat} (h : spmAccessOk p a n = true) : a + n ≤ p.memBytes := by
  simp only [spmAccessOk, Bool.and_eq_true, decide_eq_true_eq] at h
  exact h.2

theorem machineInv_hostAccess {x : HostAccess} (h : MachineInv s) (hx : hostAccess x s = .next t) : MachineInv t := by
  rcases hostAccess_next hx with ⟨off, -, -, rfl⟩ | ⟨a, -, hok, -, rfl⟩
  · cases x with
    | read _ _ => exact h
    | write _ _ v => exact machineInv_writeRegister h off v
  · cases x with
    | read _ _ => exact h
    | write _ n v =>
      refine ⟨h.1, memInv_writeBytes h.2 ?_⟩
      rw [length_bytesLE]
      exact spmAccessOk_inside hok

/-- The sequencer's step faults, ends at HALT, or completes a command that writes inside the SPM. -/
theorem machineInv_sequencerStep (h : MachineInv s) (hx : sequencerStep s = .next t) : MachineInv t := by
  cases hbusy : s.busy with
  | false =>
    rcases sequencerStep_next hx with ⟨-, rfl⟩ | ⟨hbusy', -⟩
    · exact h
    · simp [hbusy] at hbusy'
  | true =>
    obtain ⟨hstatus, hmem⟩ := h
    obtain ⟨-, ⟨c, l, -, rfl⟩ | ⟨l, rfl⟩ | ⟨l, m, -, rfl, hm⟩⟩ := sequencerStep_running hbusy hx
    · exact ⟨statusInv_raiseFault c _, hmem⟩
    · exact ⟨statusInv_endAtHalt hstatus hbusy, hmem⟩
    · refine ⟨hstatus, ?_⟩
      rcases hm with rfl | ⟨a, bs, hin, rfl⟩
      · exact hmem
      · exact memInv_writeBytes hmem hin

theorem machineInv_takeTurn {u : Turn} (h : MachineInv s) (hx : takeTurn u s = .next t) : MachineInv t := by
  cases u with
  | access x => exact machineInv_hostAccess h hx
  | hardReset => cases hx; exact machineInv_hardReset s
  | sequencer => exact machineInv_sequencerStep h hx

end

end Sys2Proof.Machine
end

section
/-! The words the host reads (10_state.md R26 to R30), as numbers and bit by bit. -/

namespace Sys2Proof.Machine

/-- A word's bit is a binary digit of its value. -/
theorem getLsbD_eq_of_digit {w : Word} {i : Nat} {b : Bool} (h : w.toNat / 2 ^ i % 2 = b.toNat) : w.getLsbD i = b := by
  rw [BitVec.getLsbD, Nat.testBit_eq_decide_div_mod_eq, h]
  cases b <;> rfl

/-- CTRL reads as its two enables (10_state.md R29). -/
theorem ctrlWord_getLsbD (s : State) {b : Nat} (hb : b < 32) :
    (ctrlWord s).getLsbD b = ((b == 8 && s.ieDone) || (b == 9 && s.ieErr)) := by
  have hbits : ∀ d e : Bool, ∀ b < 32, (BitVec.ofNat 32 (2 ^ 8 * d.toNat + 2 ^ 9 * e.toNat)).getLsbD b
      = ((b == 8 && d) || (b == 9 && e)) := by decide
  exact hbits s.ieDone s.ieErr b hb

section
variable (s : State)

/-- The fields of STATUS are digits of its value, and the reserved bits are 0 (10_state.md R30). -/
theorem statusWord_fields :
    (statusWord s).toNat / 2 ^ 0 % 2 = s.busy.toNat ∧ (statusWord s).toNat / 2 ^ 1 % 2 = s.done.toNat
      ∧ (statusWord s).toNat / 2 ^ 2 % 2 = s.err.toNat ∧ (statusWord s).toNat / 2 ^ 4 % 2 ^ 4 = 0
      ∧ (statusWord s).toNat / 2 ^ 8 % 2 ^ 8 = s.errcode.toNat ∧ (statusWord s).toNat / 2 ^ 16 = 0 := by
  have hbusy := Bool.toNat_lt s.busy
  have hdone := Bool.toNat_lt s.done
  have herr := Bool.toNat_lt s.err
  have hcfg := Bool.toNat_lt (cfgErr s)
  have hcode := s.errcode.isLt
  rw [statusWord_toNat]
  omega

theorem statusWord_getLsbD_zero : (statusWord s).getLsbD 0 = s.busy := by
  obtain ⟨hbusy, -⟩ := statusWord_fields s
  exact getLsbD_eq_of_digit hbusy

theorem statusWord_getLsbD_one : (statusWord s).getLsbD 1 = s.done := by
  obtain ⟨-, hdone, -⟩ := statusWord_fields s
  exact getLsbD_eq_of_digit hdone

theorem statusWord_getLsbD_two : (statusWord s).getLsbD 2 = s.err := by
  obtain ⟨-, -, herr, -⟩ := statusWord_fields s
  exact getLsbD_eq_of_digit herr

end

theorem param0_toNat (p : Params) :
    (param0 p).toNat = p.n % 2 ^ 16 + 2 ^ 16 * (p.nbar % 2 ^ 8) + 2 ^ 24 * (p.logq % 2 ^ 5) := by
  rw [param0, BitVec.toNat_ofNat, Nat.mod_eq_of_lt (by omega)]

theorem param1_toNat (p : Params) :
    (param1 p).toNat = p.eb % 2 ^ 4 + 2 ^ 8 * 16 + 2 ^ 16 * (p.seedBytes % 2 ^ 16) := by
  rw [param1, BitVec.toNat_ofNat, Nat.mod_eq_of_lt (by omega)]

theorem memsize_toNat (p : Params) : (memsize p).toNat = p.memBytes % 2 ^ 32 := BitVec.toNat_ofNat ..

theorem statusWord_resetOf (p : Params) : statusWord (State.resetOf p) = if p.valid = true then 0 else 8 := by
  cases hp : p.valid <;> simp [statusWord, State.resetOf, cfgErr, hp]

end Sys2Proof.Machine
end

section
/-! The obligations of 10_state.md. -/

namespace Sys2Proof.Machine

/-- Settles O58: in whichever turn the step takes, the machine's invariant is kept. -/
theorem everyStepKeepsTheMachineInvariant : Obligations.EveryStepKeepsTheMachineInvariant := by
  intro s t h hx
  obtain ⟨-, ⟨-, hseq⟩ | ⟨u, rest, -, hturn⟩⟩ := step_next hx
  · exact machineInv_sequencerStep h hseq
  · exact machineInv_takeTurn (s := { s with inbox := rest }) h hturn

/-- Settles O57: the reset state is what a hard reset leaves of itself. -/
theorem resetMeetsTheMachineInvariant : Obligations.ResetMeetsTheMachineInvariant :=
  ⟨fun p => machineInv_hardReset (State.resetOf p), machineInv_hardReset State.reset⟩

/-- Settles O43, from the digits of STATUS and the equation of its write. -/
theorem statusReadsAndClears : Obligations.StatusReadsAndClears := by
  refine ⟨fun s => ?_, fun s v => writeStatus_eq v s, statusWord_resetOf⟩
  obtain ⟨-, -, -, hreserved, hcode, hhigh⟩ := statusWord_fields s
  exact ⟨statusWord_getLsbD_zero s, statusWord_getLsbD_one s, statusWord_getLsbD_two s, statusWord_getLsbD_three s,
    hreserved, hcode, hhigh⟩

/-- Settles O42, from the three cases of a CTRL write and the bits CTRL reads as. -/
theorem ctrlWriteOrder : Obligations.CtrlWriteOrder :=
  ⟨fun _ _ => ⟨writeCtrl_of_srst, writeCtrl_of_start, writeCtrl_of_enables⟩, fun s _ => ctrlWord_getLsbD s,
    fun _ => rfl⟩

/-- Settles O44: the flags and the enables are bits of the two words. -/
theorem interruptFollowsTheRegisters : Obligations.InterruptFollowsTheRegisters := by
  intro s
  rw [readRegister_status, readRegister_ctrl, statusWord_getLsbD_one, statusWord_getLsbD_two,
    ctrlWord_getLsbD s (by decide), ctrlWord_getLsbD s (by decide)]
  simp [irq]

/-- Settles O45: the fields of the three words do not overlap, and a valid configuration fits them. -/
theorem constantRegisters : Obligations.ConstantRegisters := by
  refine ⟨fun s => ?_, fun s hcfg => ?_, fun s v off hoff => ?_⟩
  · rw [readRegister_param0, readRegister_param1, readRegister_memsize, param0_toNat, param1_toNat, memsize_toNat]
    omega
  · obtain ⟨-, -, -, hlogq, heb, -, hn, hnbar, hseed, hmem⟩ := valid_bounds hcfg
    omega
  · simp only [List.mem_cons, List.not_mem_nil, or_false] at hoff
    exact writeRegister_ignored (by omega) (by omega) (by omega) v s

end Sys2Proof.Machine
end

section
/-! A command as a whole: what it does once its operands are valid, and what it leaves alone (46_sequencer_control.md R203, R211). -/

namespace Sys2Proof.Machine

section
variable {i : Instr} {o : Operands} {s t : State}

/-- A command whose operands are valid and that reads an unwritten byte stops (20_memory.md R64). -/
theorem exec_unwritten (ho : operandsOf i = some o) (hv : OperandsValid s.cfg i o) (hw : ¬InputsWritten s o) :
    exec i s = .fault .unwrittenRead := by
  have hvalidate := (validate_iff_operandsValid _ _ _).2 hv
  have hinputs : inputsWritten s.cfg s.mem o = false := by
    rw [← Bool.not_eq_true, inputsWritten_iff]
    exact hw
  rw [exec_eq_runCommand s ho, runCommand_unwritten hvalidate hinputs]

/-- A command with valid operands answers no next state but its completion. -/
theorem exec_next_of_operandsValid (ho : operandsOf i = some o) (hv : OperandsValid s.cfg i o) (h : exec i s = .next t) :
    t = complete { s with mem := writeBytes s.mem o.out.addr (outputBytes s i) } := by
  by_cases hw : InputsWritten s o
  · rw [exec_eq_complete ho hv hw] at h
    cases h
    rfl
  · rw [exec_unwritten ho hv hw] at h
    cases h

/-- However a command ends, it keeps CTRL, the configuration, the latched descriptor and the host's side. -/
theorem exec_keeps (h : exec i s = .next t) :
    t.cfg = s.cfg ∧ t.ieDone = s.ieDone ∧ t.ieErr = s.ieErr ∧ t.latched = s.latched ∧ t.inbox = s.inbox
      ∧ t.hostData = s.hostData ∧ t.draws = s.draws := by
  rcases exec_next h with ⟨-, rfl⟩ | ⟨-, rfl⟩ | ⟨_, -, ⟨_, -, rfl⟩ | ⟨-, -, rfl⟩⟩ <;>
    exact ⟨rfl, rfl, rfl, rfl, rfl, rfl, rfl⟩

/-- The SPM a command leaves: as it was, or with the output bytes of valid operands written. -/
theorem exec_mem (h : exec i s = .next t) :
    t.mem = s.mem
      ∨ ∃ o, operandsOf i = some o ∧ OperandsValid s.cfg i o
        ∧ t.mem = writeBytes s.mem o.out.addr (outputBytes s i) := by
  rcases exec_next h with ⟨-, rfl⟩ | ⟨-, rfl⟩ | ⟨o, ho, ⟨c, -, rfl⟩ | ⟨hv, -, rfl⟩⟩
  · exact .inl rfl
  · exact .inl rfl
  · exact .inl rfl
  · exact .inr ⟨o, ho, (validate_iff_operandsValid _ _ _).1 hv, rfl⟩

/-- The output bytes of a command change nothing outside its output footprint (20_memory.md R57). -/
theorem sameOutside_outputBytes (s : State) (ho : operandsOf i = some o) :
    SameOutside s.mem (writeBytes s.mem o.out.addr (outputBytes s i)) o.out.addr (o.out.kind.size s.cfg) := by
  have hlen := length_outputBytes_le s ho
  exact fun x hx => readByte_writeBytes_outside (by omega)

end

end Sys2Proof.Machine
end

section
/-! What a command computes is a function of the bytes it reads (20_memory.md R57): two memories that agree on an operand hold
the same elements and bytes there, so every element function and then `outputBytes` answers the same. -/

namespace Sys2Proof.Machine

/-- Two memories read the same at every address of `[a, a + n)`. -/
def AgreeOn (m m' : Memory) (a n : Nat) : Prop := ∀ x, a ≤ x → x < a + n → readByte m' x = readByte m x

/-- Two memories hold the same `n` ring elements from `a` on. -/
def SameElems (m m' : Memory) (a n : Nat) : Prop := ∀ k, k < n → elemAt m' (a + 2 * k) = elemAt m (a + 2 * k)

/-- Place `(r, c)` of a row-major matrix lies inside it. -/
theorem rowMajor_lt {rows cols r c : Nat} (hr : r < rows) (hc : c < cols) : r * cols + c < rows * cols :=
  calc r * cols + c < (r + 1) * cols := by rw [Nat.succ_mul]; omega
    _ ≤ rows * cols := Nat.mul_le_mul_right cols hr

/-- Row and column of element `k` of a row-major matrix. -/
theorem rowMajor_div_mod {rows cols k : Nat} (hk : k < rows * cols) : k / cols < rows ∧ k % cols < cols :=
  ⟨Nat.div_lt_of_lt_mul (by rwa [mul_comm]), Nat.mod_lt _ (Nat.pos_of_lt_mul_left hk)⟩

theorem elemBytes_congr {n : Nat} {f g : Nat → Elem} (h : ∀ k, k < n → f k = g k) : elemBytes n f = elemBytes n g :=
  List.flatMap_congr fun k hk => by rw [h k (List.mem_range.1 hk)]

theorem accumulate_congr {f g : Nat → Elem} {e e' : Elem} {n : Nat} (he : e = e') (h : ∀ k, k < n → f k = g k) :
    accumulate f e n = accumulate g e' n := by
  rw [accumulate_eq_sum, accumulate_eq_sum, he, Finset.sum_congr rfl fun k hk => h k (Finset.mem_range.1 hk)]

section
variable {p : Params} {m m' : Memory} {a b out secret seed sm e key mat : Nat}

theorem AgreeOn.sameElems {n size : Nat} (h : AgreeOn m m' a size) (hsize : size = 2 * n) : SameElems m m' a n :=
  fun _ _ => elemAt_congr fun x _ _ => h x (by omega) (by omega)

theorem AgreeOn.matBB (h : AgreeOn m m' a (Kind.size p .matBB)) : SameElems m m' a (p.nbar * p.nbar) :=
  h.sameElems (by rw [Kind.size, pow_two])

theorem AgreeOn.matNB (h : AgreeOn m m' a (Kind.size p .matNB)) : SameElems m m' a (p.n * p.nbar) :=
  h.sameElems (by rw [Kind.size, mul_assoc])

theorem AgreeOn.matBN (h : AgreeOn m m' a (Kind.size p .matBN)) : SameElems m m' a (p.nbar * p.n) :=
  h.sameElems (by rw [Kind.size]; ring)

theorem AgreeOn.seedAt_eq (h : AgreeOn m m' seed (Kind.size p .seed)) : seedAt p m' seed = seedAt p m seed :=
  bytesAt_congr h

/-! ### The element functions -/

theorem raddElem_congr {k : Nat} (ha : SameElems m m' a (p.nbar * p.nbar)) (hb : SameElems m m' b (p.nbar * p.nbar))
    (hk : k < p.nbar * p.nbar) : raddElem p m' a b k = raddElem p m a b k := by
  rw [raddElem, raddElem, ha k hk, hb k hk]

theorem rsubElem_congr {k : Nat} (ha : SameElems m m' a (p.nbar * p.nbar)) (hb : SameElems m m' b (p.nbar * p.nbar))
    (hk : k < p.nbar * p.nbar) : rsubElem p m' a b k = rsubElem p m a b k := by
  rw [rsubElem, rsubElem, ha k hk, hb k hk]

theorem dmulrElem_congr {i j : Nat} (hb : SameElems m m' b (p.nbar * p.n)) (hs : SameElems m m' sm (p.n * p.nbar))
    (hi : i < p.nbar) (hj : j < p.nbar) : dmulrElem p m' b sm i j = dmulrElem p m b sm i j := by
  rw [dmulrElem, dmulrElem, accumulate_congr rfl fun k hk => by rw [hb _ (rowMajor_lt hi hk), hs _ (rowMajor_lt hk hj)]]

theorem dmaddlElem_congr {i j : Nat} (hb : SameElems m m' b (p.n * p.nbar)) (hs : SameElems m m' sm (p.nbar * p.n))
    (he : SameElems m m' e (p.nbar * p.nbar)) (hi : i < p.nbar) (hj : j < p.nbar) :
    dmaddlElem p m' b sm e i j = dmaddlElem p m b sm e i j := by
  rw [dmaddlElem, dmaddlElem, accumulate_congr (he _ (rowMajor_lt hi hj)) fun k hk => by
    rw [hs _ (rowMajor_lt hi hk), hb _ (rowMajor_lt hk hj)]]

theorem macrAcc_congr (ex : Xof) {r j : Nat} (hout : SameElems m m' out (p.n * p.nbar))
    (hsecret : SameElems m m' secret (p.n * p.nbar)) (hseed : seedAt p m' seed = seedAt p m seed) (hr : r < p.n)
    (hj : j < p.nbar) : macrAcc ex p m' out secret seed r j = macrAcc ex p m out secret seed r j := by
  rw [macrAcc, macrAcc, hseed]
  exact accumulate_congr (hout _ (rowMajor_lt hr hj)) fun c hc => by rw [hsecret _ (rowMajor_lt hc hj)]

theorem maclAcc_congr (ex : Xof) {i j : Nat} (hout : SameElems m m' out (p.nbar * p.n))
    (hsecret : SameElems m m' secret (p.nbar * p.n)) (hseed : seedAt p m' seed = seedAt p m seed) (hi : i < p.nbar)
    (hj : j < p.n) : maclAcc ex p m' out secret seed i j = maclAcc ex p m out secret seed i j := by
  rw [maclAcc, maclAcc, hseed]
  exact accumulate_congr (hout _ (rowMajor_lt hi hj)) fun k hk => by rw [hsecret _ (rowMajor_lt hi hk)]

/-- The scratch words of a packed key fit it: `SCRATCH·EB ≤ KEYBYTES` (00_scope.md R13). -/
theorem scratch_mul_eb_le (p : Params) : p.scratch * p.eb ≤ p.keyBytes := by
  rw [Params.scratch, Params.keyBytes, Nat.le_div_iff_mul_le (by norm_num), mul_right_comm]
  exact Nat.mul_le_mul_right p.eb (Nat.div_mul_le_self _ 8)

/-- The elements the codec's scratch words cover fit the matrix. -/
theorem eight_mul_scratch_le (p : Params) : 8 * p.scratch ≤ p.nbar * p.nbar := Nat.mul_div_le _ 8

theorem scratchWord_congr {w : Nat} (h : AgreeOn m m' key (Kind.size p .key)) (hw : w < p.scratch) :
    scratchWord p m' key w = scratchWord p m key w := by
  have hfit : w * p.eb + p.eb ≤ p.keyBytes :=
    calc w * p.eb + p.eb = (w + 1) * p.eb := (Nat.succ_mul ..).symm
      _ ≤ p.scratch * p.eb := Nat.mul_le_mul_right _ hw
      _ ≤ p.keyBytes := scratch_mul_eb_le p
  exact memRead_congr fun x hlo hhi => h x (by omega) (by rw [Kind.size]; omega)

theorem encElem_congr {k : Nat} (h : AgreeOn m m' key (Kind.size p .key)) (hk : k < 8 * p.scratch) :
    encElem p m' key k = encElem p m key k := by
  rw [encElem, encElem, scratchWord_congr h (Nat.div_lt_of_lt_mul hk)]

theorem packFields_congr {f g : Nat → Nat} {n : Nat} (h : ∀ j, j < n → f j = g j) : packFields p f n = packFields p g n := by
  induction n with
  | zero => rfl
  | succ n ih => rw [packFields, packFields, ih fun j hj => h j (by omega), h n (by omega)]

theorem decWord_congr {w : Nat} (h : SameElems m m' mat (p.nbar * p.nbar)) (hw : w < p.scratch) :
    decWord p m' mat w = decWord p m mat w := by
  have hfit := eight_mul_scratch_le p
  exact packFields_congr fun j hj => by rw [h (8 * w + j) (by omega)]

theorem decBytes_congr (h : SameElems m m' mat (p.nbar * p.nbar)) : decBytes p m' mat = decBytes p m mat :=
  List.flatMap_congr fun w hw => by rw [decWord_congr h (List.mem_range.1 hw)]

end

/-! ### The output bytes -/

/-- A command's output bytes depend on its configuration and on the bytes of the slots it reads. -/
theorem outputBytes_congr {i : Instr} {o : Operands} {s s' : State} (ho : operandsOf i = some o) (hcfg : s'.cfg = s.cfg)
    (h : ∀ x ∈ o.reads, AgreeOn s.mem s'.mem x.addr (x.kind.size s.cfg)) : outputBytes s' i = outputBytes s i := by
  cases i <;> simp only [operandsOf, Option.some.injEq, reduceCtorEq] at ho <;> subst ho <;>
    simp only [Operands.reads, ringOperands, genrowOperands, genblkOperands, macrOperands, maclOperands, dmulrOperands,
      dmaddlOperands, encOperands, decOperands, input, inputOrAlias, Bool.false_eq_true, if_false, if_true,
      List.forall_mem_cons, List.not_mem_nil, false_imp_iff, implies_true, and_true] at h <;>
    simp only [outputBytes, hcfg]
  case radd => exact elemBytes_congr fun k hk => raddElem_congr h.1.matBB h.2.matBB hk
  case rsub => exact elemBytes_congr fun k hk => rsubElem_congr h.1.matBB h.2.matBB hk
  case genrow => rw [genrowBytes, genrowBytes, h.seedAt_eq]
  case genblk => rw [genblkBytes, genblkBytes, h.seedAt_eq]
  case macr =>
    obtain ⟨hout, hsecret, hseed⟩ := h
    exact elemBytes_congr fun k hk => by
      rw [macrAcc_congr _ hout.matNB hsecret.matNB hseed.seedAt_eq (rowMajor_div_mod hk).1 (rowMajor_div_mod hk).2]
  case macl =>
    obtain ⟨hout, hsecret, hseed⟩ := h
    exact elemBytes_congr fun k hk => by
      rw [maclAcc_congr _ hout.matBN hsecret.matBN hseed.seedAt_eq (rowMajor_div_mod hk).1 (rowMajor_div_mod hk).2]
  case dmulr =>
    obtain ⟨hb, hs⟩ := h
    exact elemBytes_congr fun k hk => dmulrElem_congr hb.matBN hs.matNB (rowMajor_div_mod hk).1 (rowMajor_div_mod hk).2
  case dmaddl =>
    obtain ⟨hb, hs, he⟩ := h
    exact elemBytes_congr fun k hk =>
      dmaddlElem_congr hb.matNB hs.matBN he.matBB (rowMajor_div_mod hk).1 (rowMajor_div_mod hk).2
  case enc => exact elemBytes_congr fun k hk => encElem_congr h hk
  case dec => exact decBytes_congr h.matBB

end Sys2Proof.Machine
end

section
/-! The host's accesses to the SPM window (20_memory.md R51, R60, R62): which are of the interface, and that a little-endian
value written is the value read back. -/

namespace Sys2Proof.Machine

theorem spmAccessOk_iff (p : Params) (a n : Nat) :
    spmAccessOk p a n = true ↔ n ∈ [1, 2, 4] ∧ a % n = 0 ∧ a + n ≤ p.memBytes := by
  simp [spmAccessOk, and_assoc, or_assoc]

/-- A value stored at `a` in `n` bytes reads back as its low `n` bytes (20_memory.md R51). -/
theorem memRead_writeBytes_bytesLE (m : Memory) (a v n : Nat) :
    memRead (writeBytes m a (bytesLE v n)) a n = v % 2 ^ (8 * n) := by
  induction n generalizing m a v with
  | zero => rw [memRead, mul_zero, pow_zero, Nat.mod_one]
  | succ n ih =>
    have hlow : byteAt (writeBytes m a (bytesLE v (n + 1))) a = BitVec.ofNat 8 v :=
      byteAt_of_readByte (readByte_writeBytes_inside (k := 0) (by simp))
    rw [memRead, hlow, bytesLE, writeBytes, ih, BitVec.toNat_ofNat, Nat.mul_succ, pow_add, mul_comm (2 ^ (8 * n)),
      Nat.mod_mul]

theorem readByte_writeBytes_bytesLE (m : Memory) (a v : Nat) {n i : Nat} (hi : i < n) :
    readByte (writeBytes m a (bytesLE v n)) (a + i) = some (BitVec.ofNat 8 (v / 2 ^ (8 * i))) := by
  rw [readByte_writeBytes_inside (by rwa [length_bytesLE]), getElem?_bytesLE _ _ _ hi]

/-- Every byte of a block that was written is written. -/
theorem allWritten_writeBytes (m : Memory) (a : Nat) (bs : List Byte) : AllWritten (writeBytes m a bs) a bs.length := by
  intro x hlo hhi
  rw [readByte_writeBytes, if_pos ⟨hlo, hhi⟩, List.getElem?_eq_getElem (by omega)]
  exact ⟨_, rfl⟩

end Sys2Proof.Machine
end

section
/-! The obligations of 20_memory.md. -/

namespace Sys2Proof.Machine

/-- Settles O14: validation passes, and a slot the command reads has an unwritten byte. -/
theorem unwrittenInputStopsTheCommand : Obligations.UnwrittenInputStopsTheCommand := by
  intro i o s ho hv ⟨x, hx, hunwritten⟩
  exact exec_unwritten ho hv fun hw => hunwritten (hw x hx)

/-- Settles O16: a command either leaves the SPM as it was or writes the output bytes of valid operands. -/
theorem commandsTouchOnlyTheirFootprint : Obligations.CommandsTouchOnlyTheirFootprint := by
  intro i s t h
  obtain ⟨hcfg, hieDone, hieErr, hlatched, hinbox, hhostData, hdraws⟩ := exec_keeps h
  refine ⟨hcfg, hieDone, hieErr, hlatched, hinbox, hhostData, hdraws, ?_⟩
  rcases exec_mem h with hmem | ⟨o, ho, hv, hmem⟩
  · rw [hmem]
    exact ⟨fun _ => rfl, fun o _ => ⟨fun _ _ => rfl, fun _ => rfl⟩⟩
  · refine ⟨fun hnone => by simp [ho] at hnone, fun o' ho' => ?_⟩
    obtain rfl : o = o' := Option.some.inj (ho.symm.trans ho')
    exact ⟨hmem ▸ sameOutside_outputBytes s ho, fun hinvalid => absurd hv hinvalid⟩

/-- Settles O40: both runs complete with the same output bytes, which fill the output footprint. -/
theorem resultsDependOnTheInputsOnly : Obligations.ResultsDependOnTheInputsOnly := by
  intro i o s s' t t' ho hvalid hcfg hv hreads h h' a hlo hhi
  have hlen := length_outputBytes s ho hvalid
  have hbytes : outputBytes s' i = outputBytes s i := outputBytes_congr ho hcfg hreads
  rw [exec_next_of_operandsValid ho hv h, exec_next_of_operandsValid ho (hcfg ▸ hv) h', complete_mem, complete_mem, hbytes,
    readByte_writeBytes, readByte_writeBytes, if_pos (by omega), if_pos (by omega)]

/-- Settles O49: the write stores the little-endian bytes of its value, and the read finds all of them written. -/
theorem hostWriteThenRead : Obligations.HostWriteThenRead := by
  intro s a n v hidle hn hal hin ht
  have hok := (spmAccessOk_iff _ _ _).2 ⟨hn, hal, hin⟩
  have hw := allWritten_writeBytes s.mem a (bytesLE v.toNat n)
  rw [length_bytesLE] at hw
  refine ⟨_, _, hostAccess_spm (x := .write _ n v) ht hok hidle, rfl, fun x hx => ?_, fun i hi => ?_,
    hostAccess_spm (x := .read _ n) ht hok hidle, ?_⟩
  · exact readByte_writeBytes_outside (by rwa [length_bytesLE])
  · exact readByte_writeBytes_bytesLE s.mem a v.toNat hi
  · simp only [HostAccess.onSpm, hostRead_of_allWritten hw, memRead_writeBytes_bytesLE]

/-- Settles O51: the access is of the interface; its draws and, where nothing is unwritten, its value are those of `hostRead`. -/
theorem hostSpmReadsComplete : Obligations.HostSpmReadsComplete := by
  intro s a n hidle hn hal hin ht
  have hok := (spmAccessOk_iff _ _ _).2 ⟨hn, hal, hin⟩
  refine ⟨_, hostAccess_spm (x := .read _ n) ht hok hidle, hostRead_draws s.mem s.draws a n, fun hw => ?_⟩
  simp only [HostAccess.onSpm, hostRead_of_allWritten hw]

/-- Settles O53: by the target of the address; read and write are refused alike. -/
theorem accessesOutsideTheInterfaceAreRefused : Obligations.AccessesOutsideTheInterfaceAreRefused := by
  intro s addr n v h
  have hrefused : ∀ x : HostAccess, x.addr = addr → x.bytes = n → hostAccess x s = .refused .hostBusError := by
    rintro x rfl rfl
    rcases h with ht | ⟨a, ht, hbad⟩ | ⟨off, ht, hbad⟩
    · exact hostAccess_outside ht
    · refine hostAccess_spm_refused ht ?_
      rw [← Bool.not_eq_true, spmAccessOk_iff]
      rintro ⟨hn, hal, hin⟩
      rcases hbad with hbad | hbad | hbad
      · exact hbad hn
      · exact hbad hal
      · exact absurd hin (by omega)
    · refine hostAccess_register_refused ht ?_
      rw [← Bool.not_eq_true, registerAccessOk_iff]
      rintro ⟨hn, hal⟩
      exact hbad.elim (· hn) (· hal)
  exact ⟨hrefused (.read addr n) rfl rfl, hrefused (.write addr n v) rfl rfl⟩

/-- Settles O11: each row of the table is what `operandsOf` and the kinds' sizes say. -/
theorem operandTable : Obligations.OperandTable := by
  intro p m x a0 a1 a2 a3
  exact ⟨rfl, rfl, rfl, rfl, rfl, rfl, rfl, rfl, rfl, rfl, rfl, rfl⟩

/-- Settles O50: a read of a register and a read of the SPM each leave only the value read and the draws. -/
theorem hostReadsHaveNoSideEffect : Obligations.HostReadsHaveNoSideEffect := by
  intro s t addr n h
  rcases hostAccess_next h with ⟨off, -, -, rfl⟩ | ⟨a, -, -, -, rfl⟩
  · rfl
  · rfl

/-- Settles O52: the access is of the interface, and BUSY stops it. -/
theorem busySpmAccessStops : Obligations.BusySpmAccessStops := by
  intro s a n v hbusy hn hal hin ht
  have hok := (spmAccessOk_iff _ _ _).2 ⟨hn, hal, hin⟩
  exact ⟨hostAccess_spm_busy (x := .read _ n) ht hok hbusy, hostAccess_spm_busy (x := .write _ n v) ht hok hbusy⟩

end Sys2Proof.Machine
end

section
/-! The decoder and the encoder, said once: what each field of a header is, when a descriptor decodes, and that the two
undo each other (30_encoding.md R80 to R86). -/

namespace Sys2Proof

section
variable {d : Descriptor} {i : Instr} {o : Op}

/-! ### The rows of R84, by their opcodes -/

theorem usesM_iff_code_mem (o : Op) : o.usesM = true ↔ o.code ∈ [0x30, 0x31] := by cases o <;> decide

theorem usesIdx_iff_code_mem (o : Op) : o.usesIdx = true ↔ o.code ∈ [0x20, 0x21] := by cases o <;> decide

/-- The rows that use A0, and with it A1. -/
theorem slotCount_pos_iff_code_mem (o : Op) :
    0 < o.slotCount ↔ o.code ∈ [0x10, 0x11, 0x20, 0x21, 0x30, 0x31, 0x40, 0x41, 0x50, 0x51] := by
  cases o <;> decide

/-- No row uses A0 alone. -/
theorem one_lt_slotCount_iff_pos (o : Op) : 1 < o.slotCount ↔ 0 < o.slotCount := by cases o <;> decide

theorem two_lt_slotCount_iff_code_mem (o : Op) :
    2 < o.slotCount ↔ o.code ∈ [0x10, 0x11, 0x30, 0x31, 0x40, 0x41] := by
  cases o <;> decide

theorem three_lt_slotCount_iff_code_mem (o : Op) : 3 < o.slotCount ↔ o.code ∈ [0x41] := by cases o <;> decide

/-- The opcodes of no row are those R86 lists. -/
theorem ofCode?_eq_none_iff {c : Nat} (hc : c < 2 ^ 8) : Op.ofCode? c = none ↔ Machine.ReservedOpcode c := by
  simp only [Op.ofCode?, List.find?_eq_none, Op.all, List.forall_mem_cons, List.not_mem_nil, false_imp_iff,
    implies_true, and_true, Op.code, beq_iff_eq, Machine.ReservedOpcode]
  omega

/-! ### The two decoding checks (46_sequencer_control.md R202) -/

/-- R85, field by field. -/
theorem reservedOk_iff (o : Op) (d : Descriptor) :
    reservedOk o d = true ↔
      rsvField d.w0 = 0 ∧ (mField d.w0 = false ∨ o.usesM = true) ∧ (idxField d.w0 = 0 ∨ o.usesIdx = true)
        ∧ (d.w1 = 0 ∨ 0 < o.slotCount) ∧ (d.w2 = 0 ∨ 1 < o.slotCount) ∧ (d.w3 = 0 ∨ 2 < o.slotCount)
        ∧ (d.w4 = 0 ∨ 3 < o.slotCount) := by
  simp only [reservedOk, Bool.and_eq_true, Bool.or_eq_true, Bool.not_eq_true', beq_iff_eq, decide_eq_true_eq, and_assoc,
    or_comm (b := _ = (0 : Word))]

theorem mField_eq_false_iff (w : Word) : mField w = false ↔ w.toNat / 2 ^ 8 % 2 = 0 := by
  rw [mField, beq_eq_false_iff_ne, Nat.mod_two_ne_one]

/-- The requirements with R84's opcodes are those of the row with this opcode. -/
theorem fieldsOk_iff_reservedOk (ho : Op.ofCode? (opcField d.w0) = some o) :
    Machine.FieldsOk d ↔ reservedOk o d = true := by
  have hcode : d.w0.toNat % 2 ^ 8 = o.code := (ofCode?_some ho).symm
  rw [reservedOk_iff, Machine.FieldsOk, hcode, one_lt_slotCount_iff_pos, mField_eq_false_iff, usesM_iff_code_mem,
    usesIdx_iff_code_mem, slotCount_pos_iff_code_mem, two_lt_slotCount_iff_code_mem, three_lt_slotCount_iff_code_mem]
  rfl

theorem decode_of_ofCode?_none (ho : Op.ofCode? (opcField d.w0) = none) : decode d = .error .illegalOpcode := by
  simp [decode, ho]

theorem decode_of_reservedOk (ho : Op.ofCode? (opcField d.w0) = some o) (hok : reservedOk o d = true) :
    decode d = .ok (assemble o d) := by
  simp [decode, ho, hok]

theorem decode_of_not_reservedOk (ho : Op.ofCode? (opcField d.w0) = some o) (hok : ¬reservedOk o d = true) :
    decode d = .error .reservedNonzero := by
  simp [decode, ho, hok]

/-- A descriptor that decodes has a row, meets its requirements, and is that row's command. -/
theorem decode_ok (h : decode d = .ok i) :
    ∃ o, Op.ofCode? (opcField d.w0) = some o ∧ reservedOk o d = true ∧ i = assemble o d := by
  cases ho : Op.ofCode? (opcField d.w0) with
  | none => rw [decode_of_ofCode?_none ho] at h; cases h
  | some o =>
    by_cases hok : reservedOk o d = true
    · rw [decode_of_reservedOk ho hok] at h; cases h; exact ⟨o, rfl, hok, rfl⟩
    · rw [decode_of_not_reservedOk ho hok] at h; cases h

/-- The bytes of a descriptor that decodes, at the head of a list. -/
theorem decodeBytes_descriptorBytes (h : decode d = .ok i) (rest : List Byte) :
    decodeBytes (descriptorBytes d ++ rest) = .ok (i, rest) := by
  simp [decodeBytes, descriptorOfBytes_descriptorBytes, h]

/-! ### Decoding what the encoder gives -/

/-- The row of a command (R84). -/
def Instr.op : Instr → Op
  | .halt => .halt
  | .nop => .nop
  | .radd _ _ _ => .radd
  | .rsub _ _ _ => .rsub
  | .genrow _ _ _ => .genrow
  | .genblk _ _ _ => .genblk
  | .macr _ _ _ _ => .macr
  | .macl _ _ _ _ => .macl
  | .dmulr _ _ _ => .dmulr
  | .dmaddl _ _ _ _ => .dmaddl
  | .enc _ _ => .enc
  | .dec _ _ => .dec

theorem lt_of_fitsIndex {n : Nat} (h : fitsIndex n = true) : n < 2 ^ 16 := of_decide_eq_true h

theorem opcField_encode (hi : i.wellFormed = true) : opcField (encode i).w0 = i.op.code := by
  cases i with
  | genrow r _ _ | genblk r _ _ =>
    simp only [Instr.wellFormed, Bool.and_eq_true] at hi
    obtain ⟨⟨hr, -⟩, -⟩ := hi
    exact opcField_header _ _ _ (lt_of_fitsIndex hr)
  | _ => exact opcField_header _ _ _ (by decide)

theorem ofCode?_encode (hi : i.wellFormed = true) : Op.ofCode? (opcField (encode i).w0) = some i.op := by
  rw [opcField_encode hi, ofCode?_code]

/-- The twelve laws of the family Encoding, as one. -/
theorem encoding_statement : ∀ i : Instr, Laws.Encoding.Statement i
  | .halt => Laws.Encoding.halt
  | .nop => Laws.Encoding.nop
  | .radd c a b => Laws.Encoding.radd c a b
  | .rsub c a b => Laws.Encoding.rsub c a b
  | .genrow r out seed => Laws.Encoding.genrow r out seed
  | .genblk kk out seed => Laws.Encoding.genblk kk out seed
  | .macr m out secret seed => Laws.Encoding.macr m out secret seed
  | .macl m out secret seed => Laws.Encoding.macl m out secret seed
  | .dmulr out b sm => Laws.Encoding.dmulr out b sm
  | .dmaddl out b sm e => Laws.Encoding.dmaddl out b sm e
  | .enc out key => Laws.Encoding.enc out key
  | .dec key mat => Laws.Encoding.dec key mat

/-- The descriptor of a well-formed command meets its own row's requirements. -/
theorem reservedOk_encode (hi : i.wellFormed = true) : reservedOk i.op (encode i) = true := by
  obtain ⟨o, ho, hok⟩ := encoding_statement i hi
  rw [ofCode?_encode hi, Option.some.injEq] at ho
  rwa [ho]

/-- Every operand of a well-formed command is read back from the field it was written to (R83). -/
theorem assemble_encode (hi : i.wellFormed = true) : assemble i.op (encode i) = i := by
  cases i with
  | halt | nop => rfl
  | genrow r _ _ | genblk r _ _ =>
    simp only [Instr.wellFormed, Bool.and_eq_true] at hi
    obtain ⟨⟨hr, hout⟩, hseed⟩ := hi
    simp only [Instr.op, assemble, encode, idxField_header _ _ _ (lt_of_fitsIndex hr), slotWord_toNat, hout, hseed]
  | macr m _ _ _ | macl m _ _ _ =>
    simp only [Instr.wellFormed, Bool.and_eq_true] at hi
    simp only [Instr.op, assemble, encode, mField_header _ _ 0 (by decide), slotWord_toNat, hi]
  | _ =>
    simp only [Instr.wellFormed, Bool.and_eq_true] at hi
    simp only [Instr.op, assemble, encode, slotWord_toNat, hi]

theorem decode_encode (hi : i.wellFormed = true) : decode (encode i) = .ok i := by
  rw [decode_of_reservedOk (ofCode?_encode hi) (reservedOk_encode hi), assemble_encode hi]

/-! ### Encoding what the decoder gives -/

/-- A header whose reserved bits are 0 is its three fields (R82). -/
theorem header_of_fields {w : Word} (hcode : o.code = opcField w) (hrsv : rsvField w = 0) :
    header o (mField w) (idxField w) = w := by
  have hw := w.isLt
  have hm : (mField w).toNat = w.toNat / 2 ^ 8 % 2 := by
    rcases Nat.mod_two_eq_zero_or_one (w.toNat / 2 ^ 8) with h | h <;> simp only [mField, h] <;> rfl
  unfold opcField at hcode
  unfold rsvField at hrsv
  apply BitVec.eq_of_toNat_eq
  rw [header_toNat _ _ _ (by unfold idxField; omega), hm, idxField]
  omega

@[simp] theorem slotWord_of_toNat (w : Word) : slotWord w.toNat = w := BitVec.ofNat_toNat ..

@[simp] theorem fitsSlot_toNat (w : Word) : fitsSlot w.toNat = true := decide_eq_true w.isLt

@[simp] theorem fitsIndex_idxField (w : Word) : fitsIndex (idxField w) = true :=
  decide_eq_true (by have hw := w.isLt; unfold idxField; omega)

/-- What a descriptor's fields give always fits them again. -/
theorem wellFormed_assemble (o : Op) (d : Descriptor) : (assemble o d).wellFormed = true := by
  cases o <;> simp [assemble, Instr.wellFormed]

/-- The words and header fields a row does not use are 0, and those it uses are its command's operands (R85, R87): what
is left in each row are the equations of its unused fields. -/
theorem encode_assemble (ho : Op.ofCode? (opcField d.w0) = some o) (hok : reservedOk o d = true) :
    encode (assemble o d) = d := by
  obtain ⟨hrsv, hm, hidx, h1, h2, h3, h4⟩ := (reservedOk_iff o d).1 hok
  have hheader := header_of_fields (ofCode?_some ho) hrsv
  clear ho hok hrsv
  obtain ⟨w0, w1, w2, w3, w4⟩ := d
  cases o <;> simp_all [assemble, encode, Op.usesM, Op.usesIdx, Op.slotCount]

end

end Sys2Proof
end

section
/-! The obligations of 30_encoding.md. -/

namespace Sys2Proof.Machine

/-- Settles O3: the descriptor of a well-formed command passes both checks, and each operand is read back. -/
theorem decodeOfEncodeIsTheCommand : Obligations.DecodeOfEncodeIsTheCommand := by
  intro i hi
  have hbytes := decodeBytes_descriptorBytes (decode_encode hi) []
  rw [List.append_nil] at hbytes
  exact ⟨decode_encode hi, hbytes⟩

/-- Settles O4: the fields a row does not use are 0, so its command encodes to the same descriptor. -/
theorem everyAcceptedDescriptorIsAnEncoding : Obligations.EveryAcceptedDescriptorIsAnEncoding := by
  intro d i h
  obtain ⟨o, ho, hok, rfl⟩ := decode_ok h
  exact ⟨wellFormed_assemble o d, encode_assemble ho hok⟩

section
variable {s : State} {d : Descriptor}

/-- A fetched descriptor that does not decode faults, and only STATUS and the latch change (60_exceptions.md R234). -/
theorem sequencerStep_of_decode_error {e : DecodeError} (hf : Fetches s d) (he : decode d = .error e) :
    sequencerStep s = .next (faulted (rejectionCode e).code { s with latched := some d }) := by
  rw [sequencerStep_of_fetches hf]
  simp only [runDescriptor, he]
  rfl

/-- A fetched descriptor that decodes runs as its command (46_sequencer_control.md R202). -/
theorem sequencerStep_of_decode_ok {i : Instr} (hf : Fetches s d) (hi : decode d = .ok i) :
    sequencerStep s = exec i { s with latched := some d } := by
  rw [sequencerStep_of_fetches hf]
  simp only [runDescriptor, hi]

/-- An opcode that R86 does not list has a row of R84. -/
theorem exists_row_of_not_reserved (h : ¬ReservedOpcode (d.w0.toNat % 2 ^ 8)) :
    ∃ o, Op.ofCode? (opcField d.w0) = some o := by
  rw [← ofCode?_eq_none_iff (Nat.mod_lt _ (by decide))] at h
  exact Option.ne_none_iff_exists'.1 h

end

/-- Settles O5: R86's values are those of no row, and a row's descriptor fails no check but the second. -/
theorem reservedOpcodesFault : Obligations.ReservedOpcodesFault := by
  intro s d hf
  constructor
  · intro hreserved
    have hnone := (ofCode?_eq_none_iff (Nat.mod_lt _ (by decide))).2 hreserved
    exact sequencerStep_of_decode_error hf (decode_of_ofCode?_none hnone)
  · intro hlisted
    obtain ⟨o, ho⟩ := exists_row_of_not_reserved hlisted
    by_cases hok : reservedOk o d = true
    · simp [decode_of_reservedOk ho hok]
    · simp [decode_of_not_reservedOk ho hok]

/-- Settles O6: R85's requirements are those of the descriptor's row, which decide between the fault and the command. -/
theorem reservedFieldsFault : Obligations.ReservedFieldsFault := by
  intro s d hf hlisted
  obtain ⟨o, ho⟩ := exists_row_of_not_reserved hlisted
  rw [fieldsOk_iff_reservedOk ho]
  constructor
  · intro hbroken
    exact sequencerStep_of_decode_error hf (decode_of_not_reservedOk ho hbroken)
  · intro hok
    exact ⟨_, decode_of_reservedOk ho hok, sequencerStep_of_decode_ok hf (decode_of_reservedOk ho hok)⟩

/-- Settles O7: twelve closed equations, each evaluated. -/
theorem encodingExamplesHold : Obligations.EncodingExamplesHold := by
  unfold Obligations.EncodingExamplesHold
  decide

end Sys2Proof.Machine
end

section
/-! The 16-bit ring operations as arithmetic modulo 2^LOGQ (41_ring_arithmetic.md R101 to R104), and what reduction leaves of
them. -/

namespace Sys2Proof.Machine

section
variable {p : Params} {x y x' y' : Elem}

/-! ### Modulo 2^16 -/

theorem add16_toNat (x y : Elem) : (add16 x y).toNat = (x.toNat + y.toNat) % 2 ^ 16 := BitVec.toNat_add x y

theorem sub16_toNat (x y : Elem) : (sub16 x y).toNat = (x.toNat + 2 ^ 16 - y.toNat) % 2 ^ 16 := by
  have hy := y.isLt
  rw [sub16, BitVec.toNat_sub, add_comm x.toNat, Nat.sub_add_comm hy.le]

theorem mul16_toNat (x y : Elem) : (mul16 x y).toNat = x.toNat * y.toNat % 2 ^ 16 := BitVec.toNat_mul x y

/-! ### Modulo 2^LOGQ, a divisor of 2^16 -/

theorem add16_modEq (hq : p.logq ≤ 16) (x y : Elem) : (add16 x y).toNat ≡ x.toNat + y.toNat [MOD 2 ^ p.logq] := by
  rw [add16_toNat]
  exact (Nat.mod_modEq _ _).of_dvd (pow_dvd_pow 2 hq)

theorem mul16_modEq (hq : p.logq ≤ 16) (x y : Elem) : (mul16 x y).toNat ≡ x.toNat * y.toNat [MOD 2 ^ p.logq] := by
  rw [mul16_toNat]
  exact (Nat.mod_modEq _ _).of_dvd (pow_dvd_pow 2 hq)

/-- A difference is what gives the minuend back when the subtrahend is added. -/
theorem sub16_add_modEq (hq : p.logq ≤ 16) (x y : Elem) : (sub16 x y).toNat + y.toNat ≡ x.toNat [MOD 2 ^ p.logq] := by
  have hback : add16 (sub16 x y) y = x := sub_add_cancel x y
  simpa only [hback] using (add16_modEq hq (sub16 x y) y).symm

/-- The difference modulo 2^LOGQ over the integers, where it may be negative. -/
theorem sub16_int_modEq (hq : p.logq ≤ 16) (x y : Elem) :
    ((sub16 x y).toNat : Int) ≡ (x.toNat : Int) - y.toNat [ZMOD 2 ^ p.logq] := by
  have hadd := Int.natCast_modEq_iff.2 (sub16_add_modEq hq x y)
  push_cast at hadd
  simpa using hadd.sub_right (y.toNat : Int)

/-! ### Reduction (R104) -/

/-- Two elements reduce alike exactly when they agree modulo 2^LOGQ. -/
theorem red_eq_red_iff (hq : p.logq ≤ 16) : red p x = red p y ↔ x.toNat ≡ y.toNat [MOD 2 ^ p.logq] := by
  rw [← BitVec.toNat_inj, red_toNat p x hq, red_toNat p y hq, Nat.ModEq]

@[simp] theorem red_red (p : Params) (x : Elem) : red p (red p x) = red p x := by
  rw [red, red, BitVec.and_assoc, BitVec.and_self]

theorem red_lt (hq : p.logq ≤ 16) (x : Elem) : (red p x).toNat < 2 ^ p.logq := by
  rw [red_toNat p x hq]
  exact Nat.mod_lt _ (by positivity)

/-! A reduced result depends on the reduced operands only. -/

theorem red_add16_congr (hq : p.logq ≤ 16) (hx : red p x' = red p x) (hy : red p y' = red p y) :
    red p (add16 x' y') = red p (add16 x y) := by
  rw [red_eq_red_iff hq] at hx hy ⊢
  exact (add16_modEq hq x' y').trans ((hx.add hy).trans (add16_modEq hq x y).symm)

theorem red_sub16_congr (hq : p.logq ≤ 16) (hx : red p x' = red p x) (hy : red p y' = red p y) :
    red p (sub16 x' y') = red p (sub16 x y) := by
  rw [red_eq_red_iff hq] at hx hy ⊢
  have hsum := (sub16_add_modEq hq x' y').trans (hx.trans (sub16_add_modEq hq x y).symm)
  exact hy.add_right_cancel hsum

theorem red_mul16_congr (hq : p.logq ≤ 16) (hx : red p x' = red p x) (hy : red p y' = red p y) :
    red p (mul16 x' y') = red p (mul16 x y) := by
  rw [red_eq_red_iff hq] at hx hy ⊢
  exact (mul16_modEq hq x' y').trans ((hx.mul hy).trans (mul16_modEq hq x y).symm)

end

end Sys2Proof.Machine
end

section
/-! A command that writes a matrix: what its output operand holds after completion, and which commands write reduced elements
(41_ring_arithmetic.md R105, R106, R108). -/

namespace Sys2Proof.Machine

section
variable {i : Instr} {o : Operands} {s : State} {c a b n : Nat} {f : Nat → Elem}

/-- A command whose operands are valid and written, and whose output bytes are those of `n` elements, completes with each of them
in its place. -/
theorem exec_writes_elems (ho : operandsOf i = some o) (hv : OperandsValid s.cfg i o) (hw : InputsWritten s o)
    (hbytes : outputBytes s i = elemBytes n f) :
    ∃ t, exec i s = .next t ∧ Completed s t o.out.addr (o.out.kind.size s.cfg)
      ∧ ∀ k, k < n → HoldsElem t.mem (o.out.addr + 2 * k) (f k) := by
  refine ⟨_, exec_eq_complete ho hv hw, completed_writeBytes (length_outputBytes_le s ho), fun k hk => ?_⟩
  rw [complete_mem, hbytes]
  exact holdsElem_writeBytes_elemBytes _ _ _ _ _ hk

/-! ### RADD and RSUB: both have the operands of `ringOperands` -/

theorem RingReady.operandsValid (h : RingReady s c a b) (hidx : indexOk s.cfg i = true) :
    OperandsValid s.cfg i (ringOperands c a b) := by
  obtain ⟨hc, ha, hb, hcIn, haIn, hbIn, hca, hcb, -, -⟩ := h
  simp only [OperandsValid, ringOperands, input, inputOrAlias, Kind.size, List.forall_mem_cons, List.not_mem_nil,
    false_imp_iff, implies_true, and_true, true_and]
  exact ⟨hidx, ⟨fun _ => hc, fun _ => ha, fun _ => hb⟩, ⟨hcIn, haIn, hbIn⟩, hca, hcb⟩

theorem RingReady.inputsWritten (h : RingReady s c a b) : InputsWritten s (ringOperands c a b) := by
  obtain ⟨-, -, -, -, -, -, -, -, ha, hb⟩ := h
  intro x hx
  obtain rfl | rfl : x = inputOrAlias .matBB a ∨ x = inputOrAlias .matBB b := by simpa [ringOperands, Operands.reads] using hx
  · exact ha
  · exact hb

/-! ### Which commands write reduced elements -/

/-- ENC's field times STEP fits below 2^LOGQ (45_key_codec.md R181). -/
theorem encElem_lt {p : Params} (he : p.eb ≤ p.logq) (m : Memory) (key k : Nat) :
    (encElem p m key k).toNat < 2 ^ p.logq := by
  have hfield := fieldOf_lt p (scratchWord p m key (k / 8)) (k % 8)
  rw [encElem, BitVec.toNat_ofNat, Nat.shiftLeft_eq]
  calc _ ≤ fieldOf p (scratchWord p m key (k / 8)) (k % 8) * 2 ^ (p.logq - p.eb) := Nat.mod_le _ _
    _ < 2 ^ p.eb * 2 ^ (p.logq - p.eb) := Nat.mul_lt_mul_of_pos_right hfield (by positivity)
    _ = 2 ^ p.logq := by rw [← pow_add, Nat.add_sub_cancel' he]

/-- A command of R108 writes elements below 2^LOGQ: ENC shifts a field into place, and every other one ends in `red`. -/
theorem outputBytes_of_closesRing (hcl : ClosesRing i) (hp : s.cfg.valid = true) :
    ∃ n f, outputBytes s i = elemBytes n f ∧ ∀ k, (f k).toNat < 2 ^ s.cfg.logq := by
  obtain ⟨-, -, heb, hq, -⟩ := valid_bounds hp
  cases i with
  | halt | nop | genrow | genblk | dec => exact hcl.elim
  | radd | rsub | dmulr | dmaddl => exact ⟨_, _, rfl, fun _ => red_lt hq _⟩
  | macr m | macl m =>
    obtain rfl : m = true := hcl
    exact ⟨_, _, rfl, fun _ => red_lt hq _⟩
  | enc => exact ⟨_, _, rfl, encElem_lt heb.le _ _⟩

end

end Sys2Proof.Machine
end

section
/-! The obligations of 41_ring_arithmetic.md. -/

namespace Sys2Proof.Machine

/-- Settles O1: the three operations are those of 16-bit vectors. -/
theorem aluPrimitivesWrapAtSixteenBits : Obligations.AluPrimitivesWrapAtSixteenBits :=
  fun x y => ⟨add16_toNat x y, sub16_toNat x y, mul16_toNat x y⟩

/-- Settles O2: 2^LOGQ divides 2^16, so a reduced result is a residue modulo 2^LOGQ and depends on the operands' residues only. -/
theorem reductionCommutesWithTheRing : Obligations.ReductionCommutesWithTheRing := by
  intro p x y hq
  have hx := red_red p x
  have hy := red_red p y
  refine ⟨red_toNat p x hq, rfl, ?_, (red_add16_congr hq hx hy).symm, ?_, ?_, (red_mul16_congr hq hx hy).symm,
    fun x' y' hx' hy' => ⟨red_add16_congr hq hx' hy', red_sub16_congr hq hx' hy', red_mul16_congr hq hx' hy'⟩⟩
  · rw [red_toNat _ _ hq, add16_modEq hq x y]
  · rw [red_toNat _ _ hq]
    exact_mod_cast sub16_int_modEq hq x y
  · rw [red_toNat _ _ hq, mul16_modEq hq x y]

/-- Settles O22: RADD's output bytes are those of the reduced sums of the Snapshot. -/
theorem raddWritesTheReducedSums : Obligations.RaddWritesTheReducedSums :=
  fun _ _ _ _ h => exec_writes_elems rfl (h.operandsValid rfl) h.inputsWritten rfl

/-- Settles O23: RSUB's output bytes are those of the reduced differences of the Snapshot. -/
theorem rsubWritesTheReducedDifferences : Obligations.RsubWritesTheReducedDifferences :=
  fun _ _ _ _ h => exec_writes_elems rfl (h.operandsValid rfl) h.inputsWritten rfl

/-- Settles O39: the elements written fill the output footprint, and each reads back as it was written. -/
theorem ringClosureOfResults : Obligations.RingClosureOfResults := by
  intro i o s t hp hcl ho hv h k hk
  obtain ⟨n, f, hbytes, hlt⟩ := outputBytes_of_closesRing hcl hp
  have hsize : 2 * n = o.out.kind.size s.cfg := by rw [← length_outputBytes s ho hp, hbytes, length_elemBytes]
  obtain ⟨hwritten, helem⟩ := holdsElem_writeBytes_elemBytes s.mem o.out.addr n f k (by omega)
  rw [exec_next_of_operandsValid ho hv h, complete_mem, hbytes]
  exact ⟨hwritten, helem ▸ hlt k⟩

end Sys2Proof.Machine
end

section
/-! The matrix generator (42_matrix_generator.md): the domain tags, the bytes of a row and of a block of rows of A(seed), and
what GENROW and GENBLK do once their operands are valid. -/

namespace Sys2Proof.Machine

/-! ### Index checks and domain tags (R121, R125) -/

/-- A failing index check is the first operand check to fail, whatever the operands are (46_sequencer_control.md R202). -/
theorem exec_of_indexOk_false {i : Instr} {o : Operands} {s : State} (ho : operandsOf i = some o)
    (hidx : indexOk s.cfg i = false) : exec i s = .next (raiseFault .badIndex s) := by
  have hfails : validate s.cfg (indexOk s.cfg i) o = some .badIndex := by simp [validate, hidx]
  rw [exec_eq_runCommand s ho, runCommand_faults hfails]

theorem rowIndexOk_eq_false {p : Params} {r : Nat} (h : p.n ≤ r) : rowIndexOk p r = false :=
  decide_eq_false (Nat.not_lt.2 h)

theorem blockIndexOk_eq_false {p : Params} {kk : Nat} (h : p.n ≤ kk ∨ kk % 4 ≠ 0) : blockIndexOk p kk = false := by
  simpa [blockIndexOk, or_iff_not_imp_left] using h

/-- In a valid configuration no row's tag wraps (00_scope.md R10(d)). -/
theorem rowTag_toNat {p : Params} {r : Nat} (hp : p.valid = true) (hr : r < p.n) : (rowTag r).toNat = 256 + r := by
  have hn : p.n ≤ 65280 := by obtain ⟨-, -, -, -, -, -, hn, -⟩ := valid_bounds hp; exact hn
  rw [rowTag, BitVec.toNat_ofNat]
  omega

/-! ### The bytes written -/

section
variable {ex : Xof} {p : Params} {m m' : Memory} {seed : Nat}

/-- An element of A(seed) is stored as the two XOF bytes it was read from (R120). -/
theorem matrixA_byte (ex : Xof) (p : Params) (bs : List Byte) (r c : Nat) {i : Nat} (hi : i < 2) :
    BitVec.ofNat 8 ((matrixA ex p bs r c).toNat / 2 ^ (8 * i)) = ex (rowTag r) bs (2 * p.n) (2 * c + i) := by
  have hlo := (ex (rowTag r) bs (2 * p.n) (2 * c)).isLt
  have hhi := (ex (rowTag r) bs (2 * p.n) (2 * c + 1)).isLt
  obtain rfl | rfl : i = 0 ∨ i = 1 := by omega
  all_goals
    apply BitVec.eq_of_toNat_eq
    simp only [matrixA, BitVec.toNat_ofNat, mul_zero, mul_one, pow_zero, add_zero]
    omega

/-- A row's bytes are those of `Expand(256 + r, seed, 2N)` as they are (R122). -/
theorem getElem?_genrowBytes (r : Nat) {b : Nat} (hb : b < 2 * p.n) :
    (genrowBytes ex p m r seed)[b]? = some (ex (rowTag r) (seedAt p m seed) (2 * p.n) b) := by
  obtain ⟨c, i, hi, rfl⟩ : ∃ c i, i < 2 ∧ b = 2 * c + i := ⟨b / 2, b % 2, by omega, by omega⟩
  rw [genrowBytes, getElem?_elemBytes _ _ _ _ (by omega) hi, matrixA_byte _ _ _ _ _ hi]

@[simp] theorem length_genrowBytes (r : Nat) : (genrowBytes ex p m r seed).length = 2 * p.n := length_elemBytes _ _

theorem genrowBytes_congr (r : Nat) (h : AgreeOn m m' seed (Kind.size p .seed)) :
    genrowBytes ex p m' r seed = genrowBytes ex p m r seed := by
  rw [genrowBytes, genrowBytes, h.seedAt_eq]

theorem elemBytes_add (a b : Nat) (f : Nat → Elem) :
    elemBytes (a + b) f = elemBytes a f ++ elemBytes b fun k => f (a + k) := by
  rw [elemBytes, List.range_add, List.flatMap_append, List.flatMap_map, elemBytes, elemBytes]

/-- Place `(r, c)` of a row-major matrix is in row `r`, at column `c`. -/
theorem rowMajor_place {cols c : Nat} (r : Nat) (hc : c < cols) : (r * cols + c) / cols = r ∧ (r * cols + c) % cols = c := by
  rw [Nat.mul_comm r]
  exact ⟨by rw [Nat.mul_add_div (by omega), Nat.div_eq_of_lt hc, add_zero], by rw [Nat.mul_add_mod, Nat.mod_eq_of_lt hc]⟩

/-- Rows of `n` elements one after another are the elements of a row-major matrix. -/
theorem flatMap_elemBytes (rows n : Nat) (f : Nat → Nat → Elem) :
    ((List.range rows).flatMap fun t => elemBytes n (f t)) = elemBytes (rows * n) fun k => f (k / n) (k % n) := by
  induction rows with
  | zero => simp [elemBytes]
  | succ rows ih =>
    have hlast : (elemBytes n fun k => f ((rows * n + k) / n) ((rows * n + k) % n)) = elemBytes n (f rows) :=
      elemBytes_congr fun k hk => by rw [(rowMajor_place rows hk).1, (rowMajor_place rows hk).2]
    rw [List.range_succ, List.flatMap_append, ih, List.flatMap_singleton, Nat.succ_mul, elemBytes_add, hlast]

/-- A block's bytes are those of the `4 × N` matrix of its rows (R123). -/
theorem genblkBytes_eq_elemBytes (kk : Nat) :
    genblkBytes ex p m kk seed
      = elemBytes (4 * p.n) fun k => matrixA ex p (seedAt p m seed) (kk + k / p.n) (k % p.n) :=
  flatMap_elemBytes 4 p.n fun t c => matrixA ex p (seedAt p m seed) (kk + t) c

end

/-! ### GENROW and GENBLK: an output of one kind or the other, and the seed -/

section
variable {i : Instr} {s : State} {k : Kind} {r kk out seed : Nat}

theorem generator_operandsValid (hidx : indexOk s.cfg i = true) (heven : Even2 out)
    (hout : InRange s.cfg out (k.size s.cfg)) (hseed : InRange s.cfg seed s.cfg.seedBytes)
    (hapart : Apart out (k.size s.cfg) seed s.cfg.seedBytes) :
    OperandsValid s.cfg i ⟨input k out, [input .seed seed], false⟩ := by
  simp only [OperandsValid, input, Kind.isMatrix, List.forall_mem_cons, List.not_mem_nil, false_imp_iff, implies_true,
    and_true, Bool.false_eq_true, false_and, or_false]
  exact ⟨hidx, fun _ => heven, ⟨hout, hseed⟩, hapart⟩

theorem generator_inputsWritten (hseed : AllWritten s.mem seed s.cfg.seedBytes) :
    InputsWritten s ⟨input k out, [input .seed seed], false⟩ := by
  intro x hx
  obtain rfl : x = input .seed seed := List.mem_singleton.1 hx
  exact hseed

theorem GenrowReady.exec_eq (h : GenrowReady s r out seed) :
    exec (.genrow r out seed) s
      = .next (complete { s with mem := writeBytes s.mem out (genrowBytes Config.expand s.cfg s.mem r seed) }) := by
  obtain ⟨hr, heven, hout, hseed, hapart, hw⟩ := h
  exact exec_eq_complete (o := genrowOperands out seed) rfl
    (generator_operandsValid (decide_eq_true hr) heven hout hseed hapart) (generator_inputsWritten hw)

theorem GenblkReady.operandsValid (h : GenblkReady s kk out seed) :
    OperandsValid s.cfg (.genblk kk out seed) (genblkOperands out seed) := by
  obtain ⟨hkk, hblock, heven, hout, hseed, hapart, -⟩ := h
  exact generator_operandsValid (by simp [indexOk, blockIndexOk, hkk, hblock]) heven hout hseed hapart

theorem GenblkReady.inputsWritten (h : GenblkReady s kk out seed) : InputsWritten s (genblkOperands out seed) := by
  obtain ⟨-, -, -, -, -, -, hw⟩ := h
  exact generator_inputsWritten hw

/-! ### GENBLK as rows (R123) -/

/-- The SPM of `s` with `rows` rows of A(seed) from row `kk` on written one after another at `out`. -/
def rowsWritten (s : State) (kk out seed rows : Nat) : Memory :=
  writeBytes s.mem out ((List.range rows).flatMap fun t => genrowBytes Config.expand s.cfg s.mem (kk + t) seed)

theorem rowsWritten_zero (s : State) (kk out seed : Nat) : rowsWritten s kk out seed 0 = s.mem := rfl

theorem rowsWritten_succ (s : State) (kk out seed rows : Nat) :
    rowsWritten s kk out seed (rows + 1)
      = writeBytes (rowsWritten s kk out seed rows) (out + 2 * s.cfg.n * rows)
          (genrowBytes Config.expand s.cfg s.mem (kk + rows) seed) := by
  rw [rowsWritten, List.range_succ, List.flatMap_append, List.flatMap_singleton, writeBytes_append,
    length_flatMap_blocks (2 * s.cfg.n) _ fun _ => length_genrowBytes _]
  rfl

theorem readByte_rowsWritten_outside {rows x : Nat} (h : x < out ∨ out + 2 * s.cfg.n * rows ≤ x) :
    readByte (rowsWritten s kk out seed rows) x = readByte s.mem x := by
  refine readByte_writeBytes_outside ?_
  rwa [length_flatMap_blocks (2 * s.cfg.n) _ fun _ => length_genrowBytes _]

/-- The rows of a block leave its seed alone. -/
theorem GenblkReady.agreeOn_seed (h : GenblkReady s kk out seed) {rows : Nat} (hrows : rows ≤ 4) :
    AgreeOn s.mem (rowsWritten s kk out seed rows) seed s.cfg.seedBytes := by
  obtain ⟨-, -, -, -, -, hapart, -⟩ := h
  have hfit : 2 * s.cfg.n * rows ≤ 2 * s.cfg.n * 4 := Nat.mul_le_mul_left _ hrows
  intro x hlo hhi
  apply readByte_rowsWritten_outside
  unfold Apart at hapart
  omega

/-- Row `t` of a block, once the rows before it are written: GENROW is ready, and completes with one row more. -/
theorem GenblkReady.exec_genrow (h : GenblkReady s kk out seed) (hn : s.cfg.n % 4 = 0) {u : State} {t a : Nat} (ht : t < 4)
    (ha : a = out + 2 * s.cfg.n * t) (hcfg : u.cfg = s.cfg) (hmem : u.mem = rowsWritten s kk out seed t) :
    ∃ u', exec (.genrow (kk + t) a seed) u = .next u' ∧ u'.cfg = s.cfg ∧ u'.mem = rowsWritten s kk out seed (t + 1) := by
  have hagree : AgreeOn s.mem u.mem seed s.cfg.seedBytes := hmem ▸ h.agreeOn_seed ht.le
  have hfit : 2 * s.cfg.n * t + 2 * s.cfg.n ≤ 8 * s.cfg.n := by nlinarith
  obtain ⟨hkk, hblock, heven, hout, hseed, hapart, hw⟩ := h
  unfold Even2 at heven
  unfold InRange at hout
  unfold Apart at hapart
  have hready : GenrowReady u (kk + t) a seed := by
    unfold GenrowReady Even2 InRange Apart
    rw [hcfg]
    refine ⟨by omega, ?_, by omega, hseed, by omega, fun x hlo hhi => hagree x hlo hhi ▸ hw x hlo hhi⟩
    rw [ha, mul_assoc, Nat.add_mul_mod_self_left, heven]
  refine ⟨_, hready.exec_eq, hcfg, ?_⟩
  rw [complete_mem, hcfg, genrowBytes_congr (kk + t) hagree, hmem, ha, rowsWritten_succ]

end

end Sys2Proof.Machine
end

section
/-! The obligations of 42_matrix_generator.md. -/

namespace Sys2Proof.Machine

/-- Settles O13: the index check comes first, and a valid configuration's N keeps the tags apart and is a multiple of 4. -/
theorem generatorIndexChecks : Obligations.GeneratorIndexChecks := by
  refine ⟨fun s r out seed h => ?_, fun s kk out seed h => ?_, fun p hp r hr => ?_, fun p hp kk hkk hblock => ?_⟩
  · exact exec_of_indexOk_false (o := genrowOperands out seed) rfl (rowIndexOk_eq_false h)
  · exact exec_of_indexOk_false (o := genblkOperands out seed) rfl (blockIndexOk_eq_false h)
  · have htag := rowTag_toNat hp hr
    refine ⟨by omega, by omega, fun r' hr' heq => ?_⟩
    have htag' := rowTag_toNat hp hr'
    rw [heq] at htag'
    omega
  · obtain ⟨-, -, -, -, -, hn, -⟩ := valid_bounds hp
    omega

/-- Settles O24: GENROW writes the row's bytes, which are the XOF's bytes and make up the row's elements. -/
theorem genrowWritesTheXofBytes : Obligations.GenrowWritesTheXofBytes := by
  intro s r out seed h
  refine ⟨_, h.exec_eq, completed_writeBytes (length_genrowBytes r).le, fun b hb => ?_, fun c hc => ?_⟩
  · rw [complete_mem, readByte_writeBytes_inside (by rwa [length_genrowBytes]), getElem?_genrowBytes r hb]
    rfl
  · exact holdsElem_writeBytes_elemBytes s.mem out _ _ c hc

/-- Settles O25: the block's bytes are those of 4N elements in row-major order. -/
theorem genblkWritesFourRows : Obligations.GenblkWritesFourRows := by
  intro s kk out seed h
  obtain ⟨t, hexec, hcompleted, helems⟩ :=
    exec_writes_elems (i := .genblk kk out seed) rfl h.operandsValid h.inputsWritten (genblkBytes_eq_elemBytes kk)
  refine ⟨t, hexec, hcompleted, fun r hr c hc => ?_⟩
  obtain ⟨hrow, hcol⟩ := rowMajor_place r hc
  have helem := helems (r * s.cfg.n + c) (rowMajor_lt hr hc)
  have hplace : out + 2 * (r * s.cfg.n + c) = out + 2 * s.cfg.n * r + 2 * c := by ring
  simp only [hrow, hcol, genblkOperands, input, hplace] at helem
  exact helem

/-- Settles O26: each GENROW adds one row to those written before it, and no row meets the seed. -/
theorem genblkIsFourGenrows : Obligations.GenblkIsFourGenrows := by
  intro s kk out seed h hn
  obtain ⟨u1, hexec1, hcfg1, hmem1⟩ := h.exec_genrow hn (t := 0) (a := out) (by omega) (by omega) rfl rfl
  obtain ⟨u2, hexec2, hcfg2, hmem2⟩ := h.exec_genrow hn (a := out + 2 * s.cfg.n) (by omega) (by omega) hcfg1 hmem1
  obtain ⟨u3, hexec3, hcfg3, hmem3⟩ := h.exec_genrow hn (a := out + 4 * s.cfg.n) (by omega) (by omega) hcfg2 hmem2
  obtain ⟨u4, hexec4, -, hmem4⟩ := h.exec_genrow hn (a := out + 6 * s.cfg.n) (by omega) (by omega) hcfg3 hmem3
  exact ⟨_, u1, u2, u3, u4, exec_eq_complete (o := genblkOperands out seed) rfl h.operandsValid h.inputsWritten,
    hexec1, hexec2, hexec3, hexec4, hmem4⟩

end Sys2Proof.Machine
end

section
/-! The matrix accumulator (43_matrix_accumulator.md): MACR and MACL as commands that write a matrix, the 4-wide block algorithm,
and the consumers' reduction of what M = 0 leaves above LOGQ. -/

namespace Sys2Proof.Machine

/-- A command whose output bytes are those of a `rows × cols` matrix in row-major order completes with each cell in its place. -/
theorem exec_writes_cells {i : Instr} {o : Operands} {s : State} {rows cols : Nat} (f : Nat → Nat → Elem)
    (ho : operandsOf i = some o) (hv : OperandsValid s.cfg i o) (hw : InputsWritten s o)
    (hbytes : outputBytes s i = elemBytes (rows * cols) fun k => f (k / cols) (k % cols)) :
    ∃ t, exec i s = .next t ∧ Completed s t o.out.addr (o.out.kind.size s.cfg)
      ∧ ∀ r, r < rows → ∀ c, c < cols → HoldsElem t.mem (o.out.addr + 2 * (r * cols + c)) (f r c) := by
  obtain ⟨t, hexec, hcompleted, helems⟩ := exec_writes_elems ho hv hw hbytes
  refine ⟨t, hexec, hcompleted, fun r hr c hc => ?_⟩
  have hcell := helems (r * cols + c) (rowMajor_lt hr hc)
  rwa [(rowMajor_place r hc).1, (rowMajor_place r hc).2] at hcell

/-! ### MACR and MACL: an output matrix read and written, a secret of the same kind, and the seed -/

section
variable {i : Instr} {s : State} {kind : Kind} {out secret seed : Nat}

theorem MacReady.operandsValid (h : MacReady s out secret seed) (hsize : kind.size s.cfg = 2 * s.cfg.n * s.cfg.nbar)
    (hidx : indexOk s.cfg i = true) :
    OperandsValid s.cfg i ⟨input kind out, [input kind secret, input .seed seed], true⟩ := by
  obtain ⟨hout, hsecret, houtIn, hsecretIn, hseedIn, hapartSecret, hapartSeed, -⟩ := h
  simp only [OperandsValid, input, hsize, List.forall_mem_cons, List.not_mem_nil, false_imp_iff, implies_true, and_true,
    Bool.false_eq_true, false_and, or_false]
  exact ⟨hidx, ⟨fun _ => hout, fun _ => hsecret, fun hmatrix => nomatch hmatrix⟩, ⟨houtIn, hsecretIn, hseedIn⟩, hapartSecret,
    hapartSeed⟩

theorem MacReady.inputsWritten (h : MacReady s out secret seed) (hsize : kind.size s.cfg = 2 * s.cfg.n * s.cfg.nbar) :
    InputsWritten s ⟨input kind out, [input kind secret, input .seed seed], true⟩ := by
  obtain ⟨-, -, -, -, -, -, -, hout, hsecret, hseed⟩ := h
  simp only [InputsWritten, Operands.reads, if_true, input, List.forall_mem_cons, List.not_mem_nil, false_imp_iff, implies_true,
    and_true, hsize]
  exact ⟨hout, hsecret, hseed⟩

/-- MACR completes with the accumulator of each cell, treated as M says (R142, R143). -/
theorem MacReady.exec_macr (h : MacReady s out secret seed) (q : Bool) :
    ∃ t, exec (.macr q out secret seed) s = .next t ∧ Completed s t out (2 * s.cfg.n * s.cfg.nbar)
      ∧ ∀ r, r < s.cfg.n → ∀ j, j < s.cfg.nbar → HoldsElem t.mem (out + 2 * (r * s.cfg.nbar + j))
          (fin16 s.cfg q (macrAcc Config.expand s.cfg s.mem out secret seed r j)) :=
  exec_writes_cells (o := macrOperands out secret seed)
    (fun r j => fin16 s.cfg q (macrAcc Config.expand s.cfg s.mem out secret seed r j)) rfl (h.operandsValid rfl rfl)
    (h.inputsWritten rfl) rfl

/-- MACL completes with the accumulator of each cell, treated as M says (R142, R144). -/
theorem MacReady.exec_macl (h : MacReady s out secret seed) (q : Bool) :
    ∃ t, exec (.macl q out secret seed) s = .next t ∧ Completed s t out (2 * s.cfg.n * s.cfg.nbar)
      ∧ ∀ i, i < s.cfg.nbar → ∀ j, j < s.cfg.n → HoldsElem t.mem (out + 2 * (i * s.cfg.n + j))
          (fin16 s.cfg q (maclAcc Config.expand s.cfg s.mem out secret seed i j)) :=
  exec_writes_cells (o := maclOperands out secret seed)
    (fun i j => fin16 s.cfg q (maclAcc Config.expand s.cfg s.mem out secret seed i j)) rfl (h.operandsValid rfl rfl)
    (h.inputsWritten rfl) rfl

/-- The M = 1 element is `red` of the M = 0 element of the same accumulator (R142), at every place of a row-major matrix. -/
theorem elemAt_eq_red_of_fin16 {p : Params} {m m' : Memory} {rows cols k : Nat} {acc : Nat → Nat → Elem}
    (hraw : ∀ r, r < rows → ∀ c, c < cols → HoldsElem m (out + 2 * (r * cols + c)) (fin16 p false (acc r c)))
    (hmasked : ∀ r, r < rows → ∀ c, c < cols → HoldsElem m' (out + 2 * (r * cols + c)) (fin16 p true (acc r c)))
    (hk : k < rows * cols) : elemAt m' (out + 2 * k) = red p (elemAt m (out + 2 * k)) := by
  obtain ⟨hr, hc⟩ := rowMajor_div_mod hk
  obtain ⟨-, helem⟩ := hraw _ hr _ hc
  obtain ⟨-, helem'⟩ := hmasked _ hr _ hc
  rw [Nat.div_add_mod'] at helem helem'
  rw [helem, helem']
  rfl

end

/-! ### The block algorithm (R145) -/

/-- Four steps of the accumulation loop add one block's running sum: the ring Z/2^16 is commutative and associative. -/
theorem blockAcc_eq_accumulate (A : Nat → Nat → Elem) (sc : Nat → Elem) (e : Elem) (j b : Nat) :
    blockAcc A sc e j b = accumulate (fun k => mul16 (sc k) (A k j)) e (4 * b) := by
  induction b with
  | zero => rfl
  | succ b ih =>
    rw [blockAcc, ih, Nat.mul_succ]
    simp only [accumulate, add16, mul16]
    ring

/-! ### Consumers of unreduced elements (R142) -/

/-- Two memories hold, from `a` on, elements that agree after reduction. -/
def SameReduced (p : Params) (m m' : Memory) (a : Nat) : Prop :=
  ∀ k, red p (elemAt m' (a + 2 * k)) = red p (elemAt m (a + 2 * k))

/-- The accumulation loop, once reduced, depends on the reduced terms only. -/
theorem red_accumulate_congr {p : Params} {f g : Nat → Elem} {x y : Elem} (hq : p.logq ≤ 16) (hacc : red p x = red p y)
    (h : ∀ k, red p (f k) = red p (g k)) (n : Nat) : red p (accumulate f x n) = red p (accumulate g y n) := by
  induction n with
  | zero => exact hacc
  | succ n ih => exact red_add16_congr hq ih (h n)

section
variable {p : Params} {m m' : Memory} {a b sm e mat : Nat}

theorem raddElem_of_sameReduced (hq : p.logq ≤ 16) (ha : SameReduced p m m' a) (hb : SameReduced p m m' b) (k : Nat) :
    raddElem p m' a b k = raddElem p m a b k :=
  red_add16_congr hq (ha k) (hb k)

theorem rsubElem_of_sameReduced (hq : p.logq ≤ 16) (ha : SameReduced p m m' a) (hb : SameReduced p m m' b) (k : Nat) :
    rsubElem p m' a b k = rsubElem p m a b k :=
  red_sub16_congr hq (ha k) (hb k)

theorem dmulrElem_of_sameReduced (hq : p.logq ≤ 16) (hb : SameReduced p m m' b) (hs : SameReduced p m m' sm) (i j : Nat) :
    dmulrElem p m' b sm i j = dmulrElem p m b sm i j :=
  red_accumulate_congr hq rfl (fun k => red_mul16_congr hq (hb (i * p.n + k)) (hs (k * p.nbar + j))) p.n

theorem dmaddlElem_of_sameReduced (hq : p.logq ≤ 16) (hb : SameReduced p m m' b) (hs : SameReduced p m m' sm)
    (he : SameReduced p m m' e) (i j : Nat) : dmaddlElem p m' b sm e i j = dmaddlElem p m b sm e i j :=
  red_accumulate_congr hq (he (i * p.nbar + j)) (fun k => red_mul16_congr hq (hs (i * p.n + k)) (hb (k * p.nbar + j))) p.n

/-- DEC rounds the reduced element (45_key_codec.md R182). -/
theorem roundElem_congr {x y : Elem} (h : red p x = red p y) : roundElem p x = roundElem p y := by
  rw [roundElem, roundElem, h]

theorem decBytes_of_sameReduced (h : SameReduced p m m' mat) : decBytes p m' mat = decBytes p m mat :=
  have hword (w : Nat) : decWord p m' mat w = decWord p m mat w :=
    packFields_congr fun j _ => roundElem_congr (h (8 * w + j))
  List.flatMap_congr fun w _ => by rw [hword w]

end

end Sys2Proof.Machine
end

section
/-! The obligations of 43_matrix_accumulator.md. -/

namespace Sys2Proof.Machine

/-- Settles O27: MACR's accumulation loop is the error element plus a row of A(seed) times a column of the secret. -/
theorem macrAddsTheProduct : Obligations.MacrAddsTheProduct := by
  intro s q out secret seed h
  obtain ⟨t, hexec, hcompleted, hcells⟩ := h.exec_macr q
  refine ⟨t, hexec, hcompleted, fun r hr j hj => ?_⟩
  have hcell := hcells r hr j hj
  rwa [macrAcc, accumulate_eq_sum] at hcell

/-- Settles O28: MACL's accumulation loop is the error element plus a row of the secret times a column of A(seed). -/
theorem maclAddsTheProduct : Obligations.MaclAddsTheProduct := by
  intro s q out secret seed h
  obtain ⟨t, hexec, hcompleted, hcells⟩ := h.exec_macl q
  refine ⟨t, hexec, hcompleted, fun i hi j hj => ?_⟩
  have hcell := hcells i hi j hj
  rwa [maclAcc, accumulate_eq_sum] at hcell

/-- Settles O29: N/4 blocks of four products are the accumulation loop over N products. -/
theorem maclEqualsTheBlockAlgorithm : Obligations.MaclEqualsTheBlockAlgorithm := by
  intro s q out secret seed h hn
  obtain ⟨t, hexec, -, hcells⟩ := h.exec_macl q
  refine ⟨t, hexec, fun i hi j hj => ?_⟩
  rw [blockAcc_eq_accumulate, Nat.mul_div_cancel' (Nat.dvd_of_mod_eq_zero hn)]
  exact hcells i hi j hj

/-- Settles O30: both runs write the same accumulators, raw or masked. -/
theorem maskBitOnlyReduces : Obligations.MaskBitOnlyReduces := by
  intro s out secret seed h
  constructor
  · obtain ⟨t, hexec, -, hraw⟩ := h.exec_macr false
    obtain ⟨u, hexecQ, -, hmasked⟩ := h.exec_macr true
    exact ⟨t, u, hexec, hexecQ, fun k hk => elemAt_eq_red_of_fin16 hraw hmasked hk⟩
  · obtain ⟨t, hexec, -, hraw⟩ := h.exec_macl false
    obtain ⟨u, hexecQ, -, hmasked⟩ := h.exec_macl true
    exact ⟨t, u, hexec, hexecQ, fun k hk => elemAt_eq_red_of_fin16 hraw hmasked (by rwa [mul_comm])⟩

/-- Settles O31: each consumer's result ends in `red` of ring operations on its inputs, or rounds a reduced input. -/
theorem consumersReduceTheirInputs : Obligations.ConsumersReduceTheirInputs := by
  intro p m m' a b e hp hagree
  obtain ⟨-, -, -, hq, -⟩ := valid_bounds hp
  have ha : SameReduced p m m' a := hagree a (by simp)
  have hb : SameReduced p m m' b := hagree b (by simp)
  have he : SameReduced p m m' e := hagree e (by simp)
  exact ⟨raddElem_of_sameReduced hq ha hb, rsubElem_of_sameReduced hq ha hb, dmulrElem_of_sameReduced hq ha hb,
    dmaddlElem_of_sameReduced hq ha hb he, decBytes_of_sameReduced ha⟩

end Sys2Proof.Machine
end

section
/-! The dense product (44_dense_product.md): what validation asks of DMULR and DMADDL, and their cells in matrix form. -/

namespace Sys2Proof.Machine

section
variable {s : State} {out b sm e : Nat}

theorem DmulrReady.operandsValid (h : DmulrReady s out b sm) :
    OperandsValid s.cfg (.dmulr out b sm) (dmulrOperands out b sm) := by
  obtain ⟨hout, hb, hsm, houtIn, hbIn, hsmIn, hapartB, hapartSm, -, -⟩ := h
  simp only [OperandsValid, dmulrOperands, input, Kind.size, List.forall_mem_cons, List.not_mem_nil, false_imp_iff,
    implies_true, and_true, Bool.false_eq_true, false_and, or_false]
  exact ⟨rfl, ⟨fun _ => hout, fun _ => hb, fun _ => hsm⟩, ⟨houtIn, hbIn, hsmIn⟩, hapartB, hapartSm⟩

theorem DmulrReady.inputsWritten (h : DmulrReady s out b sm) : InputsWritten s (dmulrOperands out b sm) := by
  obtain ⟨-, -, -, -, -, -, -, -, hb, hsm⟩ := h
  exact List.forall_mem_cons.2 ⟨hb, List.forall_mem_singleton.2 hsm⟩

/-- DMADDL takes `b` and `s` in the transposed kinds, whose sizes are the same (R162), and `e` may be the output (R160). -/
theorem DmaddlReady.operandsValid (h : DmaddlReady s out b sm e) :
    OperandsValid s.cfg (.dmaddl out b sm e) (dmaddlOperands out b sm e) := by
  obtain ⟨⟨hout, hb, hsm, houtIn, hbIn, hsmIn, hapartB, hapartSm, -, -⟩, he, heIn, hapartE, -⟩ := h
  simp only [OperandsValid, dmaddlOperands, input, inputOrAlias, Kind.size, List.forall_mem_cons, List.not_mem_nil,
    false_imp_iff, implies_true, and_true, Bool.false_eq_true, false_and, or_false, true_and]
  exact ⟨rfl, ⟨fun _ => hout, fun _ => hb, fun _ => hsm, fun _ => he⟩, ⟨houtIn, hbIn, hsmIn, heIn⟩, hapartB, hapartSm, hapartE⟩

theorem DmaddlReady.inputsWritten (h : DmaddlReady s out b sm e) : InputsWritten s (dmaddlOperands out b sm e) := by
  obtain ⟨⟨-, -, -, -, -, -, -, -, hb, hsm⟩, -, -, -, he⟩ := h
  exact List.forall_mem_cons.2 ⟨hb, List.forall_mem_cons.2 ⟨hsm, List.forall_mem_singleton.2 he⟩⟩

end

section
variable (p : Params) (m : Memory) (b sm e i j : Nat)

/-- DMULR's loop starts at 0, so a cell is row `i` of `b` times column `j` of `s`, masked (R161). -/
theorem dmulrElem_eq_red_sum :
    dmulrElem p m b sm i j
      = red p (∑ k ∈ Finset.range p.n, elemAt m (b + 2 * (i * p.n + k)) * elemAt m (sm + 2 * (k * p.nbar + j))) := by
  rw [dmulrElem, accumulate_eq_sum, zero_add]
  rfl

/-- DMADDL's loop starts at the cell of `e`, to which row `i` of `s` times column `j` of `b` is added before the mask (R162). -/
theorem dmaddlElem_eq_red_sum :
    dmaddlElem p m b sm e i j
      = red p (elemAt m (e + 2 * (i * p.nbar + j))
          + ∑ k ∈ Finset.range p.n, elemAt m (sm + 2 * (i * p.n + k)) * elemAt m (b + 2 * (k * p.nbar + j))) := by
  rw [dmaddlElem, accumulate_eq_sum]
  rfl

end

end Sys2Proof.Machine
end

section
/-! The obligations of 44_dense_product.md. -/

namespace Sys2Proof.Machine

/-- Settles O32: DMULR's output bytes are those of the reduced product of the Snapshot, row by row. -/
theorem dmulrWritesTheReducedProduct : Obligations.DmulrWritesTheReducedProduct := by
  intro s out b sm h
  simp only [← dmulrElem_eq_red_sum]
  exact exec_writes_cells (dmulrElem s.cfg s.mem b sm) rfl h.operandsValid h.inputsWritten rfl

/-- Settles O33: DMADDL's output bytes are computed from the Snapshot before any is written, so `e` may be the output itself. -/
theorem dmaddlAddsTheReducedProduct : Obligations.DmaddlAddsTheReducedProduct := by
  intro s out b sm e h
  simp only [← dmaddlElem_eq_red_sum]
  exact exec_writes_cells (dmaddlElem s.cfg s.mem b sm e) rfl h.operandsValid h.inputsWritten rfl

end Sys2Proof.Machine
end

section
/-! The key codec (45_key_codec.md): the sizes and powers of two of a valid configuration, ENC's element and DEC's rounding in
arithmetic, the round trip field by field and then byte by byte, and what ENC and DEC do once their operands are valid. -/

namespace Sys2Proof.Machine

/-! ### Derived sizes in a valid configuration (00_scope.md R13) -/

section
variable {p : Params}

theorem eight_mul_scratch (hp : p.valid = true) : 8 * p.scratch = p.nbar * p.nbar := by
  obtain ⟨hn, -⟩ := valid_bounds hp
  exact Nat.mul_div_cancel' (Nat.dvd_of_mod_eq_zero hn)

theorem scratch_mul_eb (hp : p.valid = true) : p.scratch * p.eb = p.keyBytes := by
  rw [Params.keyBytes, ← eight_mul_scratch hp, mul_assoc, Nat.mul_div_cancel_left _ (by norm_num)]

theorem halfQ_pos (p : Params) : 0 < p.halfQ := Nat.two_pow_pos _

theorem stepQ_eq (hp : p.valid = true) : p.stepQ = 2 * p.halfQ := by
  obtain ⟨-, -, heb, -⟩ := valid_bounds hp
  rw [Params.stepQ, Params.halfQ, ← pow_succ', Nat.sub_add_cancel (by omega)]

/-- `q = 2^EB · STEP`. -/
theorem two_pow_logq (hp : p.valid = true) : 2 ^ p.logq = 2 ^ p.eb * p.stepQ := by
  obtain ⟨-, -, heb, -⟩ := valid_bounds hp
  rw [Params.stepQ, ← pow_add, Nat.add_sub_cancel' heb.le]

/-! ### ENC's element (R181) -/

/-- A field times STEP fits an element. -/
theorem encElem_toNat (hp : p.valid = true) (m : Memory) (key k : Nat) :
    (encElem p m key k).toNat = fieldOf p (scratchWord p m key (k / 8)) (k % 8) * p.stepQ := by
  obtain ⟨-, -, -, hq, -⟩ := valid_bounds hp
  have hfit : fieldOf p (scratchWord p m key (k / 8)) (k % 8) * p.stepQ < 2 ^ 16 :=
    calc _ < 2 ^ p.eb * p.stepQ := Nat.mul_lt_mul_of_pos_right (fieldOf_lt ..) (Nat.two_pow_pos _)
      _ = 2 ^ p.logq := (two_pow_logq hp).symm
      _ ≤ 2 ^ 16 := Nat.pow_le_pow_right (by norm_num) hq
  rw [encElem, BitVec.toNat_ofNat, Nat.shiftLeft_eq, ← Params.stepQ, Nat.mod_eq_of_lt hfit]

/-! ### DEC's rounding (R182, R183) -/

theorem roundElem_eq (p : Params) (v : Elem) : roundElem p v = ((red p v).toNat + p.halfQ) / p.stepQ % 2 ^ p.eb := by
  rw [roundElem, Nat.shiftRight_eq_div_pow, Params.stepQ]

/-- The multiple of STEP just below `v`, or just above it from the tie on. -/
theorem add_halfQ_div_stepQ (hp : p.valid = true) (v : Nat) :
    (v + p.halfQ) / p.stepQ = if v % p.stepQ < p.halfQ then v / p.stepQ else v / p.stepQ + 1 := by
  have hstep := stepQ_eq hp
  have hhalf := halfQ_pos p
  have hmod := Nat.mod_lt v (show 0 < p.stepQ by omega)
  have hdiv := Nat.div_add_mod' v p.stepQ
  split
  · exact Nat.div_eq_of_lt_le (by omega) (by rw [Nat.succ_mul]; omega)
  · exact Nat.div_eq_of_lt_le (by rw [Nat.succ_mul]; omega) (by rw [Nat.succ_mul, Nat.succ_mul]; omega)

theorem red_div_stepQ_lt (hp : p.valid = true) (v : Elem) : (red p v).toNat / p.stepQ < 2 ^ p.eb := by
  obtain ⟨-, -, -, hq, -⟩ := valid_bounds hp
  exact Nat.div_lt_of_lt_mul (by rw [mul_comm, ← two_pow_logq hp]; exact red_lt hq v)

end

/-! ### The field of an integer that is known modulo q only -/

theorem emod_mul_ediv {S : Int} (hS : 0 < S) (E x : Int) : x % (E * S) / S = x / S % E := by
  rw [Int.emod_def, mul_right_comm, Int.sub_mul_ediv_right _ _ hS.ne', mul_comm E S, ← Int.ediv_ediv_of_nonneg hS.le,
    ← Int.emod_def]

/-- Field `f` is that of the integers which a multiple of `E · S` brings into `[f · S, f · S + S)`. -/
theorem ediv_emod_eq_iff {S E f : Nat} (hS : 0 < S) (hf : f < E) (x : Int) :
    x / S % E = f ↔ (x - f * S) % (E * S) < S := by
  have hS' : (0 : Int) < S := by exact_mod_cast hS
  have hE : (0 : Int) < E := by omega
  have hrem := Int.emod_nonneg (x - f * S) (mul_pos hE hS').ne'
  calc x / S % E = f ↔ (x / S - f) % E = 0 := by
        rw [← Int.emod_eq_emod_iff_emod_sub_eq_zero, Int.emod_eq_of_lt (a := f) (by omega) (by omega)]
    _ ↔ (x - f * S) % (E * S) / S = 0 := by rw [emod_mul_ediv hS', Int.sub_mul_ediv_right _ _ hS'.ne']
    _ ↔ (x - f * S) % (E * S) < S := by rw [Int.ediv_eq_iff_of_pos hS']; omega

section
variable {p : Params}

/-- DEC's rounding of an element is that of any integer congruent to it modulo q, reduced modulo 2^EB (R183). -/
theorem roundElem_of_modEq (hp : p.valid = true) {v : Elem} {y : Int} (h : (v.toNat : Int) ≡ y [ZMOD 2 ^ p.logq]) :
    (roundElem p v : Int) = (y + p.halfQ) / p.stepQ % 2 ^ p.eb := by
  obtain ⟨-, -, -, hq, -⟩ := valid_bounds hp
  have hS : (0 : Int) < p.stepQ := by exact_mod_cast Nat.two_pow_pos (p.logq - p.eb)
  have hpow : (2 : Int) ^ p.logq = 2 ^ p.eb * p.stepQ := by exact_mod_cast two_pow_logq hp
  have hred : ((red p v).toNat : Int) ≡ y [ZMOD 2 ^ p.logq] := by
    rw [red_toNat p v hq]
    push_cast
    exact (Int.mod_modEq _ _).trans h
  rw [roundElem_eq]
  push_cast
  rw [← emod_mul_ediv hS, ← emod_mul_ediv hS, ← hpow, hred.add_right p.halfQ]

/-! ### The round trip (R184) -/

theorem add_ofInt_modEq (hq : p.logq ≤ 16) (x : Elem) (d : Int) :
    ((x + BitVec.ofInt 16 d).toNat : Int) ≡ x.toNat + d [ZMOD 2 ^ p.logq] := by
  have hdvd : (2 : Int) ^ p.logq ∣ 2 ^ 16 := pow_dvd_pow 2 hq
  have hmod : ((x + BitVec.ofInt 16 d).toNat : Int) ≡ x.toNat + d [ZMOD 2 ^ 16] := by
    rw [BitVec.toNat_add, BitVec.toNat_ofInt, Int.ModEq]
    omega
  exact hmod.of_dvd hdvd

/-- Noise `d` on ENC's element moves its field by `d` rounded to the nearest multiple of STEP. -/
theorem roundElem_encElem_add (hp : p.valid = true) (m : Memory) (key k : Nat) (d : Int) :
    (roundElem p (encElem p m key k + BitVec.ofInt 16 d) : Int)
      = (fieldOf p (scratchWord p m key (k / 8)) (k % 8) + (d + p.halfQ) / p.stepQ) % 2 ^ p.eb := by
  obtain ⟨-, -, -, hq, -⟩ := valid_bounds hp
  have hS : (p.stepQ : Int) ≠ 0 := by exact_mod_cast (Nat.two_pow_pos (p.logq - p.eb)).ne'
  rw [roundElem_of_modEq hp (add_ofInt_modEq hq _ d), encElem_toNat hp]
  push_cast
  rw [add_assoc, add_comm, Int.add_mul_ediv_right _ _ hS, add_comm]

/-- Noise in `[−HALF, HALF − 1]` leaves the field as it is. -/
theorem roundElem_encElem_add_of_small (hp : p.valid = true) (m : Memory) (key k : Nat) {d : Int}
    (hlo : -(p.halfQ : Int) ≤ d) (hhi : d ≤ (p.halfQ : Int) - 1) :
    roundElem p (encElem p m key k + BitVec.ofInt 16 d) = fieldOf p (scratchWord p m key (k / 8)) (k % 8) := by
  have hstep := stepQ_eq hp
  have hfield := fieldOf_lt p (scratchWord p m key (k / 8)) (k % 8)
  have hround := roundElem_encElem_add hp m key k d
  rw [Int.ediv_eq_zero_of_lt (by omega) (by omega), add_zero] at hround
  norm_cast at hround
  rwa [Nat.mod_eq_of_lt hfield] at hround

theorem roundElem_encElem (hp : p.valid = true) (m : Memory) (key k : Nat) :
    roundElem p (encElem p m key k) = fieldOf p (scratchWord p m key (k / 8)) (k % 8) := by
  have hhalf := halfQ_pos p
  have hround := roundElem_encElem_add_of_small hp m key k (d := 0) (by omega) (by omega)
  simpa using hround

theorem roundElem_encElem_add_halfQ (hp : p.valid = true) (m : Memory) (key k : Nat) :
    roundElem p (encElem p m key k + BitVec.ofInt 16 p.halfQ)
      = (fieldOf p (scratchWord p m key (k / 8)) (k % 8) + 1) % 2 ^ p.eb := by
  have hstep := stepQ_eq hp
  have hpos := halfQ_pos p
  have hround := roundElem_encElem_add hp m key k p.halfQ
  rw [show ((p.halfQ : Int) + p.halfQ) = p.stepQ by omega, Int.ediv_self (by omega)] at hround
  exact_mod_cast hround

theorem roundElem_encElem_add_neg_halfQ_sub_one (hp : p.valid = true) (m : Memory) (key k : Nat) :
    roundElem p (encElem p m key k + BitVec.ofInt 16 (-(p.halfQ : Int) - 1))
      = (fieldOf p (scratchWord p m key (k / 8)) (k % 8) + 2 ^ p.eb - 1) % 2 ^ p.eb := by
  have hstep := stepQ_eq hp
  have hpos := halfQ_pos p
  have hround := roundElem_encElem_add hp m key k (-(p.halfQ : Int) - 1)
  have hdiv : (-(p.halfQ : Int) - 1 + p.halfQ) / p.stepQ = -1 := by
    rw [Int.ediv_eq_iff_of_pos (by omega)]
    omega
  have hE := Nat.two_pow_pos p.eb
  rw [hdiv, ← Int.add_emod_right] at hround
  zify [show 1 ≤ fieldOf p (scratchWord p m key (k / 8)) (k % 8) + 2 ^ p.eb by omega]
  rw [hround]
  ring_nf

theorem bytesAt_add (m : Memory) (a n k : Nat) : bytesAt m a (n + k) = bytesAt m a n ++ bytesAt m (a + n) k := by
  simp only [bytesAt, List.range_add, List.map_append, List.map_map, Function.comp_def, add_assoc]

theorem flatMap_bytesAt (m : Memory) (a e n : Nat) :
    ((List.range n).flatMap fun w => bytesAt m (a + w * e) e) = bytesAt m a (n * e) := by
  induction n with
  | zero => simp [bytesAt]
  | succ n ih => rw [List.range_succ, List.flatMap_append, ih, List.flatMap_singleton, Nat.succ_mul, bytesAt_add]

/-- DEC gives a packed key back from a matrix whose elements round to its fields. -/
theorem decBytes_eq_bytesAt (hp : p.valid = true) {m m' : Memory} {key mat : Nat}
    (h : ∀ k, k < p.nbar * p.nbar → roundElem p (elemAt m' (mat + 2 * k))
      = fieldOf p (scratchWord p m key (k / 8)) (k % 8)) : decBytes p m' mat = bytesAt m key p.keyBytes := by
  have hword (w : Nat) (hw : w < p.scratch) : decWord p m' mat w = scratchWord p m key w := by
    have hfields : decWord p m' mat w = packFields p (fieldOf p (scratchWord p m key w)) 8 :=
      packFields_congr fun j hj => by
        rw [h (8 * w + j) (by rw [← eight_mul_scratch hp]; omega), show (8 * w + j) / 8 = w by omega,
          show (8 * w + j) % 8 = j by omega]
    exact hfields.trans ((packFields_fieldOf ..).trans (Nat.mod_eq_of_lt (mul_comm p.eb 8 ▸ memRead_lt ..)))
  rw [← scratch_mul_eb hp, ← flatMap_bytesAt]
  exact List.flatMap_congr fun w hw => by rw [hword w (List.mem_range.1 hw), scratchWord, bytesLE_memRead]

end

/-! ### DEC's bytes (R182) -/

theorem decWord_eq_sum {p : Params} (hq : p.logq ≤ 16) (m : Memory) (mat w : Nat) :
    decWord p m mat w = ∑ j ∈ Finset.range 8,
      (((elemAt m (mat + 2 * (8 * w + j))).toNat % 2 ^ p.logq + 2 ^ (p.logq - p.eb - 1)) / 2 ^ (p.logq - p.eb) % 2 ^ p.eb)
        * 2 ^ (p.eb * j) := by
  rw [decWord, (packFields_eq_sum p _ (fun _ => roundElem_lt ..) 8).2]
  simp only [roundElem_eq, red_toNat p _ hq, Params.halfQ, Params.stepQ]

theorem getElem?_decBytes {p : Params} (hp : p.valid = true) (m : Memory) (mat : Nat) {b : Nat} (hb : b < p.keyBytes) :
    (decBytes p m mat)[b]? = some (BitVec.ofNat 8 (decWord p m mat (b / p.eb) / 2 ^ (8 * (b % p.eb)))) := by
  obtain ⟨-, heb, -⟩ := valid_bounds hp
  have hword : b / p.eb < p.scratch := Nat.div_lt_of_lt_mul (by rwa [mul_comm, scratch_mul_eb hp])
  have hbyte := Nat.mod_lt b heb
  have hblock := getElem?_flatMap_blocks p.eb (fun w => bytesLE (decWord p m mat w) p.eb) (fun _ => length_bytesLE _ _) _ _ _
    hword hbyte
  rw [Nat.div_add_mod] at hblock
  rw [decBytes, hblock, getElem?_bytesLE _ _ _ hbyte]

theorem getElem?_bytesAt (m : Memory) (a : Nat) {n b : Nat} (hb : b < n) : (bytesAt m a n)[b]? = some (byteAt m (a + b)) := by
  rw [bytesAt, List.getElem?_map, List.getElem?_range hb, Option.map_some]

/-! ### ENC and DEC as commands -/

section
variable {s t : State} {out key mat : Nat}

theorem EncReady.operandsValid (h : EncReady s out key) : OperandsValid s.cfg (.enc out key) (encOperands out key) := by
  obtain ⟨-, hout, houtIn, hkeyIn, hapart, -⟩ := h
  simp only [OperandsValid, encOperands, input, Kind.size, List.forall_mem_cons, List.not_mem_nil, false_imp_iff,
    implies_true, and_true, Bool.false_eq_true, false_and, or_false]
  exact ⟨rfl, ⟨fun _ => hout, (nomatch ·)⟩, ⟨houtIn, hkeyIn⟩, hapart⟩

theorem EncReady.inputsWritten (h : EncReady s out key) : InputsWritten s (encOperands out key) := by
  obtain ⟨-, -, -, -, -, hkey⟩ := h
  exact List.forall_mem_singleton.2 hkey

/-- ENC completes with every element of the matrix in its place. -/
theorem EncReady.exec_enc (h : EncReady s out key) :
    ∃ t, exec (.enc out key) s = .next t ∧ Completed s t out (2 * s.cfg.nbar ^ 2)
      ∧ ∀ k, k < s.cfg.nbar * s.cfg.nbar → HoldsElem t.mem (out + 2 * k) (encElem s.cfg s.mem key k) := by
  rw [← eight_mul_scratch h.1]
  exact exec_writes_elems (o := encOperands out key) rfl h.operandsValid h.inputsWritten rfl

theorem DecReady.operandsValid (h : DecReady s key mat) : OperandsValid s.cfg (.dec key mat) (decOperands key mat) := by
  obtain ⟨-, hmat, hmatIn, hkeyIn, hapart, -⟩ := h
  simp only [OperandsValid, decOperands, input, Kind.size, List.forall_mem_cons, List.not_mem_nil, false_imp_iff,
    implies_true, and_true, Bool.false_eq_true, false_and, or_false]
  exact ⟨rfl, ⟨(nomatch ·), fun _ => hmat⟩, ⟨hkeyIn, hmatIn⟩, hapart⟩

theorem DecReady.inputsWritten (h : DecReady s key mat) : InputsWritten s (decOperands key mat) := by
  obtain ⟨-, -, -, -, -, hmat⟩ := h
  exact List.forall_mem_singleton.2 hmat

/-- DEC completes with every byte of the packed key in its place. -/
theorem DecReady.exec_dec (h : DecReady s key mat) :
    ∃ t, exec (.dec key mat) s = .next t ∧ Completed s t key s.cfg.keyBytes
      ∧ ∀ b, b < s.cfg.keyBytes → readByte t.mem (key + b) = (decBytes s.cfg s.mem mat)[b]? := by
  have hlen : (decBytes s.cfg s.mem mat).length = s.cfg.keyBytes :=
    length_outputBytes (i := .dec key mat) (o := decOperands key mat) s rfl h.1
  refine ⟨_, exec_eq_complete (o := decOperands key mat) rfl h.operandsValid h.inputsWritten,
    completed_writeBytes hlen.le, fun b hb => ?_⟩
  exact readByte_writeBytes_inside (by rwa [outputBytes, hlen])

theorem allWritten_of_holdsElem {m : Memory} {a n : Nat} {f : Nat → Elem}
    (h : ∀ k, k < n → HoldsElem m (a + 2 * k) (f k)) : AllWritten m a (2 * n) := by
  intro x hlo hhi
  obtain ⟨hwritten, -⟩ := h ((x - a) / 2) (by omega)
  exact hwritten x (by omega) (by omega)

/-- The matrix ENC leaves can be decoded to any place apart from it. -/
theorem EncReady.decReady {key' : Nat} (h : EncReady s out key) (hexec : exec (.enc out key) s = .next t)
    (hkeyIn : InRange s.cfg key' s.cfg.keyBytes) (hapart : Apart key' s.cfg.keyBytes out (2 * s.cfg.nbar ^ 2)) :
    DecReady t key' out := by
  obtain ⟨u, hexec', -, helems⟩ := h.exec_enc
  obtain rfl : t = u := by simpa [hexec] using hexec'
  obtain ⟨hcfg, -⟩ := exec_keeps hexec
  obtain ⟨hp, hout, houtIn, -⟩ := h
  rw [DecReady, hcfg, pow_two]
  rw [pow_two] at houtIn hapart
  exact ⟨hp, hout, houtIn, hkeyIn, hapart, allWritten_of_holdsElem helems⟩

end

end Sys2Proof.Machine
end

section
/-! The obligations of 45_key_codec.md. -/

namespace Sys2Proof.Machine

/-- Settles O34: ENC's output bytes are those of the fields times STEP. -/
theorem encPlacesTheFields : Obligations.EncPlacesTheFields := by
  intro s out key h
  obtain ⟨t, hexec, hcompleted, helems⟩ := h.exec_enc
  obtain ⟨-, -, heb, -⟩ := valid_bounds h.1
  refine ⟨t, hexec, hcompleted, fun k hk => ?_⟩
  have hvalue := encElem_toNat h.1 s.mem key k
  obtain ⟨hwritten, helem⟩ := helems k hk
  rw [fieldOf, Nat.shiftRight_eq_div_pow, Params.stepQ, scratchWord] at hvalue
  refine ⟨_, rfl, ⟨hwritten, ?_⟩, helem ▸ hvalue, helem ▸ encElem_lt heb.le ..⟩
  rw [helem, ← hvalue, BitVec.ofNat_toNat, BitVec.setWidth_eq]

/-- Settles O35: byte `b` of the key is byte `b mod EB` of scratch word `b / EB`, the sum of its shifted fields. -/
theorem decPacksTheRoundedFields : Obligations.DecPacksTheRoundedFields := by
  intro s key mat h
  obtain ⟨t, hexec, hcompleted, hbytes⟩ := h.exec_dec
  obtain ⟨-, -, -, hq, -⟩ := valid_bounds h.1
  refine ⟨t, hexec, hcompleted, fun b hb => ?_⟩
  rw [hbytes b hb, getElem?_decBytes h.1 _ _ hb, decWord_eq_sum hq]

/-- Settles O36: adding HALF carries into the quotient by STEP exactly from the tie on, and the quotient is taken modulo 2^EB. -/
theorem decRoundsToNearest : Obligations.DecRoundsToNearest := by
  intro p v hp
  obtain ⟨-, -, -, hq, -⟩ := valid_bounds hp
  have hround := roundElem_eq p v
  have hstep := stepQ_eq hp
  have hhalf := halfQ_pos p
  have hlt := red_lt hq v
  refine ⟨hround, fun hbelow => ?_, fun htie => ?_, fun hwrap => ?_, fun f hf => ?_⟩
  · rw [hround, add_halfQ_div_stepQ hp, if_pos hbelow, Nat.mod_eq_of_lt (red_div_stepQ_lt hp v)]
  · rw [hround, add_halfQ_div_stepQ hp, if_neg (by omega)]
  · have htop : ((red p v).toNat + p.halfQ) / p.stepQ = 2 ^ p.eb := by
      have hpow := two_pow_logq hp
      exact Nat.div_eq_of_lt_le (by omega) (by rw [Nat.succ_mul]; omega)
    rw [hround, htop, Nat.mod_self]
  · have hpow : (2 : Int) ^ p.logq = (2 ^ p.eb : Nat) * p.stepQ := by exact_mod_cast two_pow_logq hp
    rw [sub_add_eq_add_sub, hpow, ← ediv_emod_eq_iff (by omega) hf, hround]
    norm_cast

/-- Settles O37: noise moves a field by the noise's own rounding, which is 0 from −HALF to HALF − 1 and ±1 just outside. -/
theorem codecRoundTripLaws : Obligations.CodecRoundTripLaws := by
  intro p m m' key mat d hp hmat
  have hsmall (hd : ∀ k, k < p.nbar * p.nbar → -(p.halfQ : Int) ≤ d k ∧ d k ≤ (p.halfQ : Int) - 1) :
      decBytes p m' mat = bytesAt m key p.keyBytes :=
    decBytes_eq_bytesAt hp fun k hk => by
      rw [hmat k hk, roundElem_encElem_add_of_small hp m key k (hd k hk).1 (hd k hk).2]
  refine ⟨fun hzero => hsmall fun k hk => ?_, hsmall, fun k hk => ⟨fun hd => ?_, fun hd => ?_⟩⟩
  · have hhalf := halfQ_pos p
    rw [hzero k hk]
    omega
  · rw [hmat k hk, hd, roundElem_encElem_add_halfQ hp]
  · rw [hmat k hk, hd, roundElem_encElem_add_neg_halfQ_sub_one hp]

/-- Settles O38: the round trip without noise, between the matrix ENC leaves and the key it was given. -/
theorem encThenDecReturnsTheKey : Obligations.EncThenDecReturnsTheKey := by
  intro s out key key' h hkeyIn hapart
  obtain ⟨t, hexec, -, helems⟩ := h.exec_enc
  obtain ⟨hcfg, -⟩ := exec_keeps hexec
  obtain ⟨u, hexec', -, hbytes⟩ := (h.decReady hexec hkeyIn hapart).exec_dec
  have hkey : decBytes s.cfg t.mem out = bytesAt s.mem key s.cfg.keyBytes :=
    decBytes_eq_bytesAt h.1 fun k hk => by rw [(helems k hk).2, roundElem_encElem h.1]
  rw [hcfg, hkey] at hbytes
  refine ⟨t, u, hexec, hexec', fun b (hb : b < s.cfg.keyBytes) => ?_⟩
  obtain ⟨-, -, -, -, -, hwritten⟩ := h
  obtain ⟨v, hv⟩ := hwritten (key + b) (by omega) (Nat.add_lt_add_left hb key)
  rw [hbytes b hb, getElem?_bytesAt _ _ hb, byteAt_of_readByte hv, hv]

end Sys2Proof.Machine
end

section
/-! The sequencer's turn, said once for each way it goes: nothing in IDLE, a fetch that fails, a fetched descriptor that decodes, and
a step that leaves the run in progress (46_sequencer_control.md R200 to R203). -/

namespace Sys2Proof.Machine

section
variable {s t : State}

theorem sequencerStep_of_idle (hidle : s.busy = false) : sequencerStep s = .next s := by
  simp [sequencerStep, hidle]

theorem sequencerStep_of_invalid (hbusy : s.busy = true) (hcfg : s.cfg.valid = false) :
    sequencerStep s = .refused .invalidConfig := by
  simp [sequencerStep, cfgErr, hbusy, hcfg]

/-! ### The fetch (R202) -/

/-- A failing address check ends the list with its fault. -/
theorem sequencerStep_of_fetchFault {c : FaultCode} (hrun : Running s) (hf : fetchFault s = some c) :
    sequencerStep s = .next (raiseFault c s) := by
  obtain ⟨hbusy, hcfg⟩ := hrun
  simp [sequencerStep, cfgErr, hbusy, hcfg, hf]

/-- An unwritten descriptor byte is a model fault (20_memory.md R64). -/
theorem sequencerStep_of_unwritten (hrun : Running s) (hf : fetchFault s = none)
    (hw : ¬AllWritten s.mem s.cmdptr.toNat 20) : sequencerStep s = .fault .unwrittenRead := by
  obtain ⟨hbusy, hcfg⟩ := hrun
  have hwords : fetchWords s.mem s.cmdptr.toNat = none := if_neg (mt (written_iff _ _ _).1 hw)
  simp [sequencerStep, cfgErr, hbusy, hcfg, hf, hwords]

theorem fetchFault_of_misaligned (hmis : s.cmdptr.toNat % 4 ≠ 0) : fetchFault s = some .descMisaligned := if_pos hmis

theorem fetchFault_of_pastEnd (hal : s.cmdptr.toNat % 4 = 0) (hpast : s.cfg.memBytes < s.cmdptr.toNat + 20) :
    fetchFault s = some .descRange := by
  rw [fetchFault, if_neg (not_not.2 hal), if_pos hpast]

theorem fetchFault_of_inside (hal : s.cmdptr.toNat % 4 = 0) (hin : s.cmdptr.toNat + 20 ≤ s.cfg.memBytes) :
    fetchFault s = none := by
  rw [fetchFault, if_neg (not_not.2 hal), if_neg (Nat.not_lt.2 hin)]

/-! ### The descriptor in the SPM -/

/-- The five words at `a` (30_encoding.md R80). -/
def descriptorAt (m : Memory) (a : Nat) : Descriptor :=
  ⟨wordAt m a, wordAt m (a + 4), wordAt m (a + 8), wordAt m (a + 12), wordAt m (a + 16)⟩

theorem fetches_descriptorAt (hrun : Running s) (hal : s.cmdptr.toNat % 4 = 0)
    (hin : s.cmdptr.toNat + 20 ≤ s.cfg.memBytes) (hw : AllWritten s.mem s.cmdptr.toNat 20) :
    Fetches s (descriptorAt s.mem s.cmdptr.toNat) :=
  ⟨hrun, hal, hin, hw, rfl, rfl, rfl, rfl, rfl⟩

theorem wordOfBytes_byteAt (m : Memory) (a : Nat) :
    wordOfBytes (byteAt m a) (byteAt m (a + 1)) (byteAt m (a + 2)) (byteAt m (a + 3)) = wordAt m a := by
  rw [wordOfBytes, wordAt]
  congr 1
  simp only [memRead]
  ring

theorem descriptorOfBytes_bytesAt (m : Memory) (a : Nat) :
    descriptorOfBytes (bytesAt m a 20) = some (descriptorAt m a, []) := by
  rw [descriptorAt, ← wordOfBytes_byteAt, ← wordOfBytes_byteAt, ← wordOfBytes_byteAt, ← wordOfBytes_byteAt,
    ← wordOfBytes_byteAt]
  rfl

/-- Decoding the 20 bytes of a descriptor is decoding its words. -/
theorem decode_descriptorAt {m : Memory} {a : Nat} {i : Instr} (h : decodeBytes (bytesAt m a 20) = .ok (i, [])) :
    decode (descriptorAt m a) = .ok i := by
  rw [decodeBytes, descriptorOfBytes_bytesAt] at h
  cases hd : decode (descriptorAt m a) with
  | error e => simp [hd] at h
  | ok j => simpa [hd] using h

/-- The sequencer's turn is the command whose bytes stand at CMDPTR. -/
theorem sequencerStep_of_decodeBytes {i : Instr} (hrun : Running s) (hal : s.cmdptr.toNat % 4 = 0)
    (hin : s.cmdptr.toNat + 20 ≤ s.cfg.memBytes) (hw : AllWritten s.mem s.cmdptr.toNat 20)
    (hbytes : decodeBytes (bytesAt s.mem s.cmdptr.toNat 20) = .ok (i, [])) :
    sequencerStep s = exec i { s with latched := some (encode i) } := by
  have hdecode := decode_descriptorAt hbytes
  obtain ⟨-, hencode⟩ := everyAcceptedDescriptorIsAnEncoding _ _ hdecode
  rw [hencode]
  exact sequencerStep_of_decode_ok (fetches_descriptorAt hrun hal hin hw) hdecode

/-! ### A step that leaves the run in progress (R203) -/

/-- Only a completed command leaves the sequencer RUNNING. -/
theorem sequencerStep_stays_busy (hbusy : s.busy = true) (h : sequencerStep s = .next t) (ht : t.busy = true) :
    s.cfg.valid = true ∧ s.cmdptr.toNat + 20 ≤ s.cfg.memBytes
      ∧ ∃ l m, t = complete { s with latched := l, mem := m } := by
  obtain ⟨hcfg, ⟨c, l, -, rfl⟩ | ⟨l, rfl⟩ | ⟨l, m, hin, rfl, -⟩⟩ := sequencerStep_running hbusy h
  · simp at ht
  · simp at ht
  · exact ⟨hcfg, hin, l, m, rfl⟩

/-- Inside a valid configuration's SPM, CMDPTR does not wrap. -/
theorem complete_cmdptr_toNat (hcfg : s.cfg.valid = true) (hin : s.cmdptr.toNat + 20 ≤ s.cfg.memBytes) :
    (complete s).cmdptr.toNat = s.cmdptr.toNat + 20 := by
  obtain ⟨-, -, -, -, -, -, -, -, -, hmem⟩ := valid_bounds hcfg
  have h20 : (20 : Word).toNat = 20 := rfl
  rw [complete_cmdptr, BitVec.toNat_add, h20]
  omega

theorem sequencerStep_cmdptr (hbusy : s.busy = true) (h : sequencerStep s = .next t) (ht : t.busy = true) :
    t.cmdptr.toNat = s.cmdptr.toNat + 20 := by
  obtain ⟨hcfg, hin, l, m, rfl⟩ := sequencerStep_stays_busy hbusy h ht
  exact complete_cmdptr_toNat (s := { s with latched := l, mem := m }) hcfg hin

/-- A step never starts a run (R201). -/
theorem busy_of_sequencerStep (h : sequencerStep s = .next t) (ht : t.busy = true) : s.busy = true := by
  by_contra hidle
  rw [sequencerStep_of_idle (Bool.eq_false_iff.2 hidle)] at h
  cases h
  exact hidle ht

/-- A run in progress after `k` steps was in progress at their start, and its `k` commands lay inside the SPM from CMDPTR on. -/
theorem SequencerRun.inside {k : Nat} (h : SequencerRun s k t) (ht : t.busy = true) :
    s.busy = true ∧ (k = 0 ∨ s.cmdptr.toNat + 20 * k ≤ s.cfg.memBytes) := by
  induction h with
  | zero => exact ⟨ht, .inl rfl⟩
  | @more s u t k hstep _ ih =>
    obtain ⟨hu, hrest⟩ := ih ht
    have hbusy := busy_of_sequencerStep hstep hu
    have hptr := sequencerStep_cmdptr hbusy hstep hu
    obtain ⟨-, hin, -⟩ := sequencerStep_stays_busy hbusy hstep hu
    rw [sequencerStep_cfg hstep] at hrest
    exact ⟨hbusy, .inr (by omega)⟩

end

end Sys2Proof.Machine
end

section
/-! The operand checks as faults (46_sequencer_control.md R202), the end of a validated command (R203), and the accesses that raise
BUSY (R201). -/

namespace Sys2Proof.Machine

section
variable {i : Instr} {o : Operands} {s : State}

/-- A check fails on a list of operands exactly when what it checks is false of one of them. -/
theorem any_iff_exists_not {check : Slot → Bool} {P : Slot → Prop} (h : ∀ x, check x = false ↔ P x) (xs : List Slot) :
    xs.any check = true ↔ ∃ x ∈ xs, ¬P x := by
  simp only [List.any_eq_true, ← h, Bool.not_eq_false]

/-- The first failing operand check is the fault of the command, which has no other effect (60_exceptions.md R234). -/
theorem exec_faults {c : FaultCode} (ho : operandsOf i = some o) (hv : validate s.cfg (indexOk s.cfg i) o = some c) :
    exec i s = .next (faulted c.code s) := by
  rw [exec_eq_runCommand s ho, runCommand_faults hv]
  rfl

/-- A validated command fills its output footprint (20_memory.md R57). -/
theorem allWritten_outputBytes (ho : operandsOf i = some o) (hcfg : s.cfg.valid = true) :
    AllWritten (writeBytes s.mem o.out.addr (outputBytes s i)) o.out.addr (o.out.kind.size s.cfg) := by
  rw [← length_outputBytes s ho hcfg]
  exact allWritten_writeBytes _ _ _

theorem runCommand_ne_refused (idx : Bool) (o : Operands) (bs : List Byte) (s : State) (r : Refusal) :
    runCommand idx o bs s ≠ .refused r := by
  unfold runCommand
  split
  · simp
  · split <;> simp

/-- Every command of the opcode map has a meaning. -/
theorem exec_ne_refused (i : Instr) (s : State) (r : Refusal) : exec i s ≠ .refused r := by
  cases ho : operandsOf i with
  | some o => rw [exec_eq_runCommand s ho]; exact runCommand_ne_refused _ _ _ _ _
  | none => cases i <;> simp only [operandsOf, reduceCtorEq] at ho <;> exact nofun

/-! ### What raises BUSY -/

theorem writeCtrl_raises_busy {v : Word} (hidle : s.busy = false) (ht : (writeCtrl v s).busy = true) :
    v.getLsbD 0 = true ∧ v.getLsbD 1 = false := by
  cases hsrst : v.getLsbD 1 with
  | true =>
    obtain ⟨m, hm, -⟩ := softReset_eq s
    simp [writeCtrl_of_srst hsrst, hm] at ht
  | false =>
    cases hstart : v.getLsbD 0 with
    | true => exact ⟨rfl, rfl⟩
    | false => simp [writeCtrl_of_enables hsrst hstart, hidle] at ht

theorem writeRegister_raises_busy {off : Nat} {v : Word} (hidle : s.busy = false)
    (ht : (writeRegister off v s).busy = true) : off = 0x0C ∧ v.getLsbD 0 = true ∧ v.getLsbD 1 = false := by
  unfold writeRegister at ht
  split at ht
  · next hoff => exact ⟨hoff, writeCtrl_raises_busy hidle ht⟩
  · split at ht
    · simp [hidle] at ht
    · split at ht
      · simp [writeCmdptr_of_idle hidle, hidle] at ht
      · simp [hidle] at ht

/-- The one host access that raises BUSY: a write of CTRL with START and not SRST. -/
theorem hostAccess_raises_busy {x : HostAccess} {t : State} (h : hostAccess x s = .next t) (hidle : s.busy = false)
    (ht : t.busy = true) :
    ∃ addr v, x = .write addr 4 v ∧ busTarget s.cfg addr = .register 0x0C ∧ v.getLsbD 0 = true
      ∧ v.getLsbD 1 = false := by
  rcases hostAccess_next h with ⟨off, htarget, hok, rfl⟩ | ⟨a, -, -, -, rfl⟩
  · cases x with
    | read _ _ => simp [HostAccess.onRegister, hidle] at ht
    | write addr n v =>
      obtain ⟨rfl, hstart, hsrst⟩ := writeRegister_raises_busy hidle ht
      obtain ⟨rfl, -⟩ := (registerAccessOk_iff _ n).1 hok
      exact ⟨addr, v, rfl, htarget, hstart, hsrst⟩
  · cases x <;> simp [HostAccess.onSpm, hidle] at ht

/-- The one turn that raises BUSY is such an access. -/
theorem takeTurn_raises_busy {u : Turn} {t : State} (h : takeTurn u s = .next t) (hidle : s.busy = false)
    (ht : t.busy = true) :
    ∃ addr v, u = .access (.write addr 4 v) ∧ busTarget s.cfg addr = .register 0x0C ∧ v.getLsbD 0 = true
      ∧ v.getLsbD 1 = false := by
  cases u with
  | access x =>
    obtain ⟨addr, v, rfl, hctrl⟩ := hostAccess_raises_busy h hidle ht
    exact ⟨addr, v, rfl, hctrl⟩
  | hardReset => cases h; simp at ht
  | sequencer => simp [busy_of_sequencerStep h ht] at hidle

end

end Sys2Proof.Machine
end

section
/-! The obligations of 46_sequencer_control.md. -/

namespace Sys2Proof.Machine

/-- Settles O19: every step of a run in progress takes 20 bytes of the SPM from CMDPTR on, so `20 · k ≤ MEM_BYTES`. -/
theorem everyRunEnds : Obligations.EveryRunEnds := by
  have hbound (s t : State) (k : Nat) (h : SequencerRun s k t) (ht : t.busy = true) : k ≤ s.cfg.memBytes / 20 := by
    obtain ⟨-, hin⟩ := h.inside ht
    omega
  refine ⟨fun s t => sequencerStep_cmdptr, fun s t hbusy hpast h => ?_, hbound, fun s t h => ?_⟩
  · rcases sequencerStep_next h with ⟨hidle, -⟩ | ⟨-, -, ⟨c, -, rfl⟩ | ⟨d, hf, -⟩⟩
    · simp [hbusy] at hidle
    · exact ⟨rfl, rfl⟩
    · obtain ⟨-, hin⟩ := fetchFault_none hf
      omega
  · by_contra hbusy
    have hle := hbound s t _ h (Bool.eq_true_of_not_eq_false hbusy)
    omega

/-- Settles O12: `validate` tries the four checks in this order and stops at the first that fails. -/
theorem operandChecksRunInOrder : Obligations.OperandChecksRunInOrder := by
  intro i o s ho odd past clash
  have hodd : (o.out :: o.ins).any Slot.misaligned = true ↔ odd := by
    simpa only [Classical.not_imp] using any_iff_exists_not misaligned_false_iff (o.out :: o.ins)
  have hpast : (o.out :: o.ins).any (Slot.pastEnd s.cfg) = true ↔ past := any_iff_exists_not (pastEnd_false_iff s.cfg) _
  have hclash : o.ins.any (slotClashes s.cfg o.out) = true ↔ clash := by
    simpa only [not_or] using any_iff_exists_not (clashes_false_iff s.cfg o.out) o.ins
  rw [← hodd, ← hpast, ← hclash]
  refine ⟨fun h => ?_, fun h h1 => ?_, fun h h1 h2 => ?_, fun h h1 h2 h3 => ?_⟩
  · exact exec_of_indexOk_false ho h
  · exact exec_faults (c := .bufMisaligned) ho (by rw [validate, h, if_neg (by decide), if_pos h1])
  · exact exec_faults (c := .bufRange) ho (by rw [validate, h, if_neg (by decide), if_neg h1, if_pos h2])
  · exact exec_faults (c := .overlap) ho (by rw [validate, h, if_neg (by decide), if_neg h1, if_neg h2, if_pos h3])

/-- Settles O15: the command writes its output bytes, which a valid configuration makes as long as the footprint. -/
theorem validatedCommandsComplete : Obligations.ValidatedCommandsComplete :=
  ⟨fun _ _ s ho hv hw => ⟨_, exec_eq_complete ho hv hw, completed_writeBytes (length_outputBytes_le s ho),
    allWritten_outputBytes ho⟩, exec_ne_refused⟩

/-- Settles O18: the step faults, ends at HALT, or completes a command inside the SPM; a run in progress has no flag set. -/
theorem commandPointerOnlyGrowsByTwenty : Obligations.CommandPointerOnlyGrowsByTwenty := by
  intro s t hinv hbusy h
  obtain ⟨hclear, -⟩ := hinv
  obtain ⟨hdone, herr⟩ := hclear hbusy
  obtain ⟨hcfg, ⟨c, l, -, rfl⟩ | ⟨l, rfl⟩ | ⟨l, m, hin, rfl, -⟩⟩ := sequencerStep_running hbusy h
  · exact .inr ⟨rfl, rfl, rfl, .inr ⟨⟨rfl, rfl⟩, rfl⟩⟩
  · exact .inr ⟨rfl, rfl, rfl, .inl ⟨⟨rfl, rfl⟩, herr⟩⟩
  · have hptr := complete_cmdptr_toNat (s := { s with latched := l, mem := m }) hcfg hin
    exact .inl ⟨hbusy, hptr, hptr.trans_le hin, rfl, hdone, herr⟩

/-- Settles O60: the only turn that raises BUSY is a START, and a completed command keeps the flags and the enables. -/
theorem busyRisesOnlyByAHostStart : Obligations.BusyRisesOnlyByAHostStart := by
  refine ⟨fun s t h hidle ht => ?_, fun s t _ hbusy h ht => ?_⟩
  · obtain ⟨hcfg, ⟨-, hseq⟩ | ⟨u, rest, hinbox, hturn⟩⟩ := step_next h
    · simp [busy_of_sequencerStep hseq ht] at hidle
    · obtain ⟨addr, v, rfl, htarget, hstart, hsrst⟩ := takeTurn_raises_busy hturn hidle ht
      exact ⟨addr, v, rest, hinbox, htarget, hstart, hsrst, hcfg⟩
  · obtain ⟨-, -, l, m, rfl⟩ := sequencerStep_stays_busy hbusy h ht
    rfl

/-- Settles O8: a turn leaves the inbox as it is taken, and the sequencer's is the command whose bytes stand at CMDPTR. -/
theorem stepRunsTheDecodedCommand : Obligations.StepRunsTheDecodedCommand := by
  refine ⟨fun s i hrun hal hin hw hbytes => ⟨fun hinbox => ?_, fun rest hinbox => ?_⟩,
    fun s x rest hcfg hinbox => step_of_inbox_cons hcfg hinbox,
    fun s rest hcfg hinbox => step_of_inbox_cons hcfg hinbox⟩
  · rw [step_of_inbox_nil hrun.2 hinbox]
    exact sequencerStep_of_decodeBytes hrun hal hin hw hbytes
  · rw [step_of_inbox_cons hrun.2 hinbox]
    exact sequencerStep_of_decodeBytes (s := { s with inbox := rest }) hrun hal hin hw hbytes

/-- Settles O9: with no turn scheduled the step is the sequencer's, which changes nothing in IDLE. -/
theorem idleSequencerDoesNothing : Obligations.IdleSequencerDoesNothing :=
  fun _ hidle => ⟨sequencerStep_of_idle hidle,
    fun hcfg hinbox => (step_of_inbox_nil hcfg hinbox).trans (sequencerStep_of_idle hidle)⟩

/-- Settles O10, from the three ways a fetch fails. -/
theorem fetchChecksComeFirst : Obligations.FetchChecksComeFirst :=
  fun _ hrun => ⟨fun hmis => sequencerStep_of_fetchFault hrun (fetchFault_of_misaligned hmis),
    fun hal hpast => sequencerStep_of_fetchFault hrun (fetchFault_of_pastEnd hal hpast),
    fun hal hin hw => sequencerStep_of_unwritten hrun (fetchFault_of_inside hal hin) hw⟩

/-- Settles O20: HALT's next state is `endAtHalt`, where DONE makes IE_DONE count. -/
theorem haltEndsTheList : Obligations.HaltEndsTheList := by
  intro s
  refine ⟨endAtHalt s, rfl, rfl, endAtHalt_cmdptr s, endAtHalt_cmdcount s, ?_⟩
  simp [irq]

/-- Settles O21: NOP's next state is `complete`. -/
theorem nopOnlyAdvances : Obligations.NopOnlyAdvances := fun _ => rfl

/-- Settles O41, from the three equations of `startRequest`. -/
theorem startRequestCases : Obligations.StartRequestCases :=
  fun _ => ⟨startRequest_of_busy, startRequest_of_invalid, startRequest_of_valid⟩

/-- Settles O48: the write of 1 is a START and no SRST, and neither the start nor a step passes the configuration check. -/
theorem invalidConfigurationNeverRuns : Obligations.InvalidConfigurationNeverRuns := by
  intro s hcfg
  refine ⟨fun hidle => ?_, step_of_invalid hcfg, fun hbusy => sequencerStep_of_invalid hbusy hcfg⟩
  have hrefused : writeRegister 0x0C 1 s = { s with
      ieDone := false, ieErr := false, err := true, errcode := FaultCode.cfgInvalid.code, done := false } :=
    startRequest_of_invalid (s := { s with ieDone := false, ieErr := false }) hidle hcfg
  dsimp only
  rw [hrefused]
  refine ⟨?_, hidle, rfl, rfl, rfl⟩
  simp [statusWord, cfgErr, hidle, hcfg, FaultCode.code]

end Sys2Proof.Machine
end

section
/-! The statement of 60_exceptions.md, from the case lemma of a RUNNING sequencer's step: a fault of a run is any code of R231 but
CFG_INVALID, which only a refused START raises. -/

namespace Sys2Proof.Machine

/-- Only CFG_INVALID has a code below 2 (60_exceptions.md R231). -/
theorem FaultCode.two_le_code {c : FaultCode} (h : c ≠ .cfgInvalid) : 2 ≤ c.code.toNat := by
  cases c
  case cfgInvalid => exact absurd rfl h
  all_goals decide

/-- Fault entry clears DONE and sets ERR, so only IE_ERR decides the interrupt (10_state.md R33). -/
@[simp] theorem irq_raiseFault (c : FaultCode) (s : State) : irq (raiseFault c s) = s.ieErr := by
  simp [irq]

/-- Settles O17: of the ways a RUNNING sequencer's step ends, HALT and completion keep ERR, which a run in progress has clear, so
an ERR afterwards is fault entry. -/
theorem faultEntryIsPrecise : Obligations.FaultEntryIsPrecise := by
  intro s t hinv hbusy h ht
  obtain ⟨hclear, -⟩ := hinv
  obtain ⟨-, herr⟩ := hclear hbusy
  obtain ⟨-, ⟨c, l, hc, rfl⟩ | ⟨l, rfl⟩ | ⟨l, m, -, rfl, -⟩⟩ := sequencerStep_running hbusy h
  · exact ⟨⟨c.code, FaultCode.two_le_code hc, c.code_le_nine, rfl⟩, irq_raiseFault c _⟩
  · simp [herr] at ht
  · simp [herr] at ht

end Sys2Proof.Machine
end

section
/-! The two resets (70_reset_and_hazards.md R270, R271): what both leave of the registers, and what a soft reset leaves of the SPM in
each way the command in progress can stand. -/

namespace Sys2Proof.Machine

section
variable {s t : State} {d : Descriptor}

/-! ### The registers after a reset (10_state.md R37) -/

/-- Either reset is a reset of the registers over some SPM. -/
theorem reset_eq_resetRegisters (h : t = hardReset s ∨ t = softReset s) : ∃ m, t = resetRegisters { s with mem := m } := by
  rcases h with rfl | rfl
  · exact ⟨[], rfl⟩
  · obtain ⟨m, hm, -⟩ := softReset_eq s
    exact ⟨m, hm⟩

theorem registersReset_of_reset (h : t = hardReset s ∨ t = softReset s) : RegistersReset s t := by
  obtain ⟨m, rfl⟩ := reset_eq_resetRegisters h
  rfl

@[simp] theorem irq_resetRegisters (s : State) : irq (resetRegisters s) = false := rfl

/-! ### The output footprint of the command in progress -/

theorem outputFootprint_of_operandsValid {p : Params} {i : Instr} {o : Operands} (hdecode : decode d = .ok i)
    (ho : operandsOf i = some o) (hvalid : OperandsValid p i o) :
    outputFootprint p d = (o.out.addr, o.out.kind.size p) := by
  have hvalidate := (validate_iff_operandsValid p i o).2 hvalid
  simp only [outputFootprint, hdecode, ho, hvalidate]

/-- A descriptor that decodes to no command with valid operands has no output. -/
theorem outputFootprint_of_no_output {p : Params}
    (hnone : ∀ i o, decode d = .ok i → operandsOf i = some o → ¬OperandsValid p i o) : outputFootprint p d = (0, 0) := by
  unfold outputFootprint
  split
  · rfl
  · next i hdecode =>
    split
    · rfl
    · next o ho =>
      split
      · rfl
      · next hvalidate => exact absurd ((validate_iff_operandsValid p i o).1 hvalidate) (hnone i o hdecode ho)

/-! ### The SPM after an abort (R271) -/

theorem abortedMemory_of_fetchFault {c : FaultCode} (hf : fetchFault s = some c) : abortedMemory s = s.mem := by
  rw [abortedMemory, hf]

theorem abortedMemory_of_unwritten (hf : fetchFault s = none) (hw : ¬AllWritten s.mem s.cmdptr.toNat 20) :
    abortedMemory s = [] := by
  have hwords : fetchWords s.mem s.cmdptr.toNat = none := if_neg (mt (written_iff _ _ _).1 hw)
  simp only [abortedMemory, hf, hwords]

theorem abortedMemory_of_fetches (h : Fetches s d) :
    abortedMemory s = forget s.mem (outputFootprint s.cfg d).1 (outputFootprint s.cfg d).2 := by
  obtain ⟨hf, hwords⟩ := fetchWords_of_fetches h
  simp only [abortedMemory, hf, hwords]

/-- Forgetting a footprint unwrites its bytes and no other. -/
theorem forget_footprint (m : Memory) (a n : Nat) :
    (∀ x, a ≤ x → x < a + n → readByte (forget m a n) x = none) ∧ SameOutside m (forget m a n) a n := by
  refine ⟨fun x hlow hhigh => ?_, fun x hout => ?_⟩
  · rw [readByte_forget, if_pos ⟨hlow, hhigh⟩]
  · rw [readByte_forget, if_neg (by omega)]

/-! ### Soft reset's SPM -/

theorem softReset_mem_of_idle (hidle : s.busy = false) : (softReset s).mem = s.mem := by
  rw [softReset, if_neg (Bool.eq_false_iff.1 hidle), resetRegisters_mem]

theorem softReset_mem_of_busy (hbusy : s.busy = true) : (softReset s).mem = abortedMemory s := by
  rw [softReset, if_pos hbusy, resetRegisters_mem]

theorem softReset_mem_of_fetches (h : Fetches s d) :
    (softReset s).mem = forget s.mem (outputFootprint s.cfg d).1 (outputFootprint s.cfg d).2 := by
  have ⟨⟨hbusy, _⟩, _⟩ := h
  rw [softReset_mem_of_busy hbusy, abortedMemory_of_fetches h]

end

end Sys2Proof.Machine
end

section
/-! The obligations of 70_reset_and_hazards.md. -/

namespace Sys2Proof.Machine

/-- Settles O54: the abort forgets the output footprint of the descriptor at CMDPTR, which is empty when the command writes nothing. -/
theorem softResetAbortsTheCommand : Obligations.SoftResetAbortsTheCommand := by
  refine ⟨fun s => registersReset_of_reset (.inr rfl), fun s => softReset_mem_of_idle, fun s hbusy hfail => ?_,
    fun s d i o hfetch hdecode ho hvalid => ?_, fun s d hfetch hnone => ?_, fun s hbusy hal hin hw x => ?_⟩
  · obtain ⟨c, hc⟩ : ∃ c, fetchFault s = some c := by
      by_cases hal : s.cmdptr.toNat % 4 = 0
      · exact ⟨_, fetchFault_of_pastEnd hal (hfail.resolve_left (not_not.2 hal))⟩
      · exact ⟨_, fetchFault_of_misaligned hal⟩
    rw [softReset_mem_of_busy hbusy, abortedMemory_of_fetchFault hc]
  · rw [softReset_mem_of_fetches hfetch, outputFootprint_of_operandsValid hdecode ho hvalid]
    exact forget_footprint s.mem _ _
  · rw [softReset_mem_of_fetches hfetch, outputFootprint_of_no_output hnone]
    exact forget_zero s.mem 0
  · rw [softReset_mem_of_busy hbusy, abortedMemory_of_unwritten (fetchFault_of_inside hal hin) hw]
    rfl

/-- Settles O47: the START stores the enables and finds the sequencer RUNNING. -/
theorem busyIgnoresStartAndPointerWrites : Obligations.BusyIgnoresStartAndPointerWrites := by
  refine fun s v hbusy => ⟨fun hstart hsrst => ?_, writeCmdptr_of_busy hbusy v⟩
  calc writeRegister 0x0C v s
    _ = startRequest { s with ieDone := v.getLsbD 8, ieErr := v.getLsbD 9 } := writeCtrl_of_start hsrst hstart
    _ = { s with ieDone := v.getLsbD 8, ieErr := v.getLsbD 9 } := startRequest_of_busy hbusy

/-- Settles O55: the registers of a hard reset are those of `State.resetOf`, whatever the state was. -/
theorem hardResetValues : Obligations.HardResetValues := by
  refine ⟨fun s => ⟨registersReset_of_reset (.inl rfl), fun _ => rfl, rfl, rfl, rfl, rfl, statusWord_resetOf s.cfg, rfl, rfl,
    irq_resetRegisters s⟩, fun s p hcfg hinbox hdata hdraws => ?_⟩
  obtain ⟨⟩ := s
  subst hcfg hinbox hdata hdraws
  rfl

/-- Settles O56: either reset leaves the registers reset, so the step is the idle one and a START finds CMDPTR at 0. -/
theorem afterResetNothingIsFetched : Obligations.AfterResetNothingIsFetched := by
  intro s t h
  obtain ⟨m, rfl⟩ := reset_eq_resetRegisters h
  have hidle := resetRegisters_busy { s with mem := m }
  refine ⟨hidle, sequencerStep_of_idle hidle, rfl, rfl, irq_resetRegisters _, fun hcfg => ?_⟩
  rw [startRequest_of_valid hidle hcfg]
  exact ⟨rfl, rfl⟩

end Sys2Proof.Machine
end
